-- ==== Sys2Proof/Word.lean ====
section
/-! DEFINITION. The word types of CORE (00_scope.md R12, 30_encoding.md R80, R84). -/

namespace Sys2Proof

/-- A byte, which is the same thing as a field element (R12, R100). -/
abbrev Byte := BitVec 8

/-- The 16-bit value field of a response, and a 16-bit immediate (R81, R84). -/
abbrev Half := BitVec 16

/-- A 32-bit command or response word (R80, R84); it has no byte order (R66). -/
abbrev Word := BitVec 32

end Sys2Proof
end

