-- ==== Sys2Proof/Syntax.lean ====
section
/-! DEFINITION. The thirty commands of CORE-CMD version 1 (30_encoding.md R86), one constructor per row of
the opcode table, and the assembler's spelling of them (R90). -/

namespace Sys2Proof

/-- The four polynomial registers (10_state.md R25): no aliases, none hard-wired. -/
inductive PReg where
  | p0 | p1 | p2 | p3
  deriving DecidableEq, Repr

/-- A command with its operands. Fields are used as they stand, unsigned, but for GFEXP's `n`, which is
read as two's complement (R82). -/
inductive Instr where
  | nop
  | rdst
  | rdcfg (sel : Half)
  | srst
  | gflog (a : Byte)
  | gfexp (n : Half)
  | gfmul (a b : Byte)
  | gfadd (a b : Byte)
  | pclr (pd : PReg)
  | ppush (pd : PReg) (c : Byte)
  | pshl (pd : PReg) (sh : Half)
  | plen (pa : PReg)
  | pget (pa : PReg) (idx : Half)
  | pmul (pd pa pb : PReg)
  | pmod (pd pa pb : PReg)
  | pgen (pd : PReg) (k : Half)
  | bclr
  | bput (v : Half) (w : BitVec 5)
  | bputb (bit : Bool)
  | bget (idx : Half)
  | bcnt
  | brdb (j : Half)
  | rsenc
  | cwrd (idx : Half)
  | mxclr
  | mxfind
  | mxplace
  | mxrd (row col : Byte)
  | mxdark (row col : Byte)
  | mxsize
  deriving DecidableEq, Repr

/-- A register's name in assembly (R25, R90). -/
def PReg.asm : PReg → String
  | .p0 => "P0" | .p1 => "P1" | .p2 => "P2" | .p3 => "P3"

/-- A command as the spec writes it (R90): the mnemonic, then the operands of the "uses" column, comma
separated. Numbers are decimal, and only GFEXP's can be negative; BPUT has the value first, then the width. -/
def Instr.asm : Instr → String
  | .nop => "NOP"
  | .rdst => "RDST"
  | .rdcfg sel => "RDCFG " ++ toString sel.toNat
  | .srst => "SRST"
  | .gflog a => "GFLOG " ++ toString a.toNat
  | .gfexp n => "GFEXP " ++ toString n.toInt
  | .gfmul a b => "GFMUL " ++ toString a.toNat ++ ", " ++ toString b.toNat
  | .gfadd a b => "GFADD " ++ toString a.toNat ++ ", " ++ toString b.toNat
  | .pclr pd => "PCLR " ++ pd.asm
  | .ppush pd c => "PPUSH " ++ pd.asm ++ ", " ++ toString c.toNat
  | .pshl pd sh => "PSHL " ++ pd.asm ++ ", " ++ toString sh.toNat
  | .plen pa => "PLEN " ++ pa.asm
  | .pget pa idx => "PGET " ++ pa.asm ++ ", " ++ toString idx.toNat
  | .pmul pd pa pb => "PMUL " ++ pd.asm ++ ", " ++ pa.asm ++ ", " ++ pb.asm
  | .pmod pd pa pb => "PMOD " ++ pd.asm ++ ", " ++ pa.asm ++ ", " ++ pb.asm
  | .pgen pd k => "PGEN " ++ pd.asm ++ ", " ++ toString k.toNat
  | .bclr => "BCLR"
  | .bput v w => "BPUT " ++ toString v.toNat ++ ", " ++ toString w.toNat
  | .bputb bit => "BPUTB " ++ (if bit then "1" else "0")
  | .bget idx => "BGET " ++ toString idx.toNat
  | .bcnt => "BCNT"
  | .brdb j => "BRDB " ++ toString j.toNat
  | .rsenc => "RSENC"
  | .cwrd idx => "CWRD " ++ toString idx.toNat
  | .mxclr => "MXCLR"
  | .mxfind => "MXFIND"
  | .mxplace => "MXPLACE"
  | .mxrd row col => "MXRD " ++ toString row.toNat ++ ", " ++ toString col.toNat
  | .mxdark row col => "MXDARK " ++ toString row.toNat ++ ", " ++ toString col.toNat
  | .mxsize => "MXSIZE"

end Sys2Proof
end

