-- ==== Sys2Proof/WellFormed.lean ====
section
/-! DEFINITION. Which command terms have a command word (30_encoding.md R82, R86, R87). -/

namespace Sys2Proof

/-- The fields' types say every bound but one: the width of a BPUT is a five-bit field with the legal values
0 to 16 (R82); 17 to 31 is an illegal word (R87). Operands that are encodable but out of range for the
instance are well formed (R89). -/
def Instr.wellFormed : Instr → Bool
  | .bput _ w => decide (w.toNat ≤ 16)
  | .nop => true
  | .rdst => true
  | .rdcfg _ => true
  | .srst => true
  | .gflog _ => true
  | .gfexp _ => true
  | .gfmul _ _ => true
  | .gfadd _ _ => true
  | .pclr _ => true
  | .ppush _ _ => true
  | .pshl _ _ => true
  | .plen _ => true
  | .pget _ _ => true
  | .pmul _ _ _ => true
  | .pmod _ _ _ => true
  | .pgen _ _ => true
  | .bclr => true
  | .bputb _ => true
  | .bget _ => true
  | .bcnt => true
  | .brdb _ => true
  | .rsenc => true
  | .cwrd _ => true
  | .mxclr => true
  | .mxfind => true
  | .mxplace => true
  | .mxrd _ _ => true
  | .mxdark _ _ => true
  | .mxsize => true

end Sys2Proof
end

