-- ==== Sys2Proof/Decode.lean ====
section
/-! DEFINITION. The opcode table, the decoder and the encoder (30_encoding.md R80, R81, R86 to R88). -/

namespace Sys2Proof

/-- The rows of the opcode table (R86). -/
inductive Op where
  | nop | rdst | rdcfg | srst
  | gflog | gfexp | gfmul | gfadd
  | pclr | ppush | pshl | plen | pget | pmul | pmod | pgen
  | bclr | bput | bputb | bget | bcnt | brdb
  | rsenc | cwrd
  | mxclr | mxfind | mxplace | mxrd | mxdark | mxsize
  deriving DecidableEq, Repr

/-- The rows in the table's order. -/
def opTable : List Op :=
  [Op.nop, Op.rdst, Op.rdcfg, Op.srst,
   Op.gflog, Op.gfexp, Op.gfmul, Op.gfadd,
   Op.pclr, Op.ppush, Op.pshl, Op.plen, Op.pget, Op.pmul, Op.pmod, Op.pgen,
   Op.bclr, Op.bput, Op.bputb, Op.bget, Op.bcnt, Op.brdb,
   Op.rsenc, Op.cwrd,
   Op.mxclr, Op.mxfind, Op.mxplace, Op.mxrd, Op.mxdark, Op.mxsize]

/-- Column "OPC" of the table: bits 31:24 of the word. -/
def Op.code : Op → BitVec 8
  | .nop => 0x00 | .rdst => 0x01 | .rdcfg => 0x02 | .srst => 0x03
  | .gflog => 0x10 | .gfexp => 0x11 | .gfmul => 0x12 | .gfadd => 0x13
  | .pclr => 0x20 | .ppush => 0x21 | .pshl => 0x22 | .plen => 0x23
  | .pget => 0x24 | .pmul => 0x25 | .pmod => 0x26 | .pgen => 0x27
  | .bclr => 0x30 | .bput => 0x31 | .bputb => 0x32 | .bget => 0x33 | .bcnt => 0x34 | .brdb => 0x35
  | .rsenc => 0x40 | .cwrd => 0x41
  | .mxclr => 0x50 | .mxfind => 0x51 | .mxplace => 0x52
  | .mxrd => 0x53 | .mxdark => 0x54 | .mxsize => 0x55

/-- Column "match" of the table. -/
def Op.patt : Op → Word
  | .nop => 0x00000000 | .rdst => 0x01000000 | .rdcfg => 0x02000000 | .srst => 0x03000000
  | .gflog => 0x10000000 | .gfexp => 0x11000000 | .gfmul => 0x12000000 | .gfadd => 0x13000000
  | .pclr => 0x20000000 | .ppush => 0x21000000 | .pshl => 0x22000000 | .plen => 0x23000000
  | .pget => 0x24000000 | .pmul => 0x25000000 | .pmod => 0x26000000 | .pgen => 0x27000000
  | .bclr => 0x30000000 | .bput => 0x31000000 | .bputb => 0x32000000 | .bget => 0x33000000
  | .bcnt => 0x34000000 | .brdb => 0x35000000
  | .rsenc => 0x40000000 | .cwrd => 0x41000000
  | .mxclr => 0x50000000 | .mxfind => 0x51000000 | .mxplace => 0x52000000
  | .mxrd => 0x53000000 | .mxdark => 0x54000000 | .mxsize => 0x55000000

/-- Column "mask" of the table. -/
def Op.mask : Op → Word
  | .nop => 0xFFFFFFFF | .rdst => 0xFFFFFFFF | .rdcfg => 0xFFFF0000 | .srst => 0xFFFFFFFF
  | .gflog => 0xFFFFFF00 | .gfexp => 0xFFFF0000 | .gfmul => 0xFFFF0000 | .gfadd => 0xFFFF0000
  | .pclr => 0xFF3FFFFF | .ppush => 0xFF3FFF00 | .pshl => 0xFF3F0000 | .plen => 0xFFCFFFFF
  | .pget => 0xFFCF0000 | .pmul => 0xFF03FFFF | .pmod => 0xFF03FFFF | .pgen => 0xFF3F0000
  | .bclr => 0xFFFFFFFF | .bput => 0xFFE00000 | .bputb => 0xFFFFFFFE | .bget => 0xFFFF0000
  | .bcnt => 0xFFFFFFFF | .brdb => 0xFFFF0000
  | .rsenc => 0xFFFFFFFF | .cwrd => 0xFFFF0000
  | .mxclr => 0xFFFFFFFF | .mxfind => 0xFFFFFFFF | .mxplace => 0xFFFFFFFF
  | .mxrd => 0xFFFF0000 | .mxdark => 0xFFFF0000 | .mxsize => 0xFFFFFFFF

/-- The row with a given opcode, if one of the thirty has it. -/
def opOfCode (c : BitVec 8) : Option Op := opTable.find? (fun o => o.code == c)

/-! ### The fields of a word (R81) -/

/-- Bits 31:24. -/
def opcField (w : Word) : BitVec 8 := w.extractLsb' 24 8
/-- Bits 23:22. -/
def pdField (w : Word) : BitVec 2 := w.extractLsb' 22 2
/-- Bits 21:20. -/
def paField (w : Word) : BitVec 2 := w.extractLsb' 20 2
/-- Bits 19:18. -/
def pbField (w : Word) : BitVec 2 := w.extractLsb' 18 2
/-- Bits 20:16. -/
def wField (w : Word) : BitVec 5 := w.extractLsb' 16 5
/-- Bits 15:0, `imm16` and `v`. -/
def immField (w : Word) : Half := w.extractLsb' 0 16
/-- Bits 15:8: `a` of format AB, and `row`. -/
def hiByteField (w : Word) : Byte := w.extractLsb' 8 8
/-- Bits 7:0: `a` of format A, `b` of format AB, `col`, and PPUSH's coefficient. -/
def loByteField (w : Word) : Byte := w.extractLsb' 0 8
/-- Bit 0, of format B. -/
def bitField (w : Word) : Bool := w.getLsbD 0

/-- `pd`, `pa`, `pb` select `P[0]` to `P[3]` (R82). -/
def pregOfBits (b : BitVec 2) : PReg :=
  if b = 0#2 then .p0 else if b = 1#2 then .p1 else if b = 2#2 then .p2 else .p3

/-- The two bits that select a register. -/
def pregBits : PReg → BitVec 2
  | .p0 => 0 | .p1 => 1 | .p2 => 2 | .p3 => 3

/-- The command of a row with its operands taken from the word: the "uses" column of R86. -/
def readOperands (op : Op) (w : Word) : Instr :=
  match op with
  | .nop => .nop
  | .rdst => .rdst
  | .rdcfg => .rdcfg (immField w)
  | .srst => .srst
  | .gflog => .gflog (loByteField w)
  | .gfexp => .gfexp (immField w)
  | .gfmul => .gfmul (hiByteField w) (loByteField w)
  | .gfadd => .gfadd (hiByteField w) (loByteField w)
  | .pclr => .pclr (pregOfBits (pdField w))
  | .ppush => .ppush (pregOfBits (pdField w)) (loByteField w)
  | .pshl => .pshl (pregOfBits (pdField w)) (immField w)
  | .plen => .plen (pregOfBits (paField w))
  | .pget => .pget (pregOfBits (paField w)) (immField w)
  | .pmul => .pmul (pregOfBits (pdField w)) (pregOfBits (paField w)) (pregOfBits (pbField w))
  | .pmod => .pmod (pregOfBits (pdField w)) (pregOfBits (paField w)) (pregOfBits (pbField w))
  | .pgen => .pgen (pregOfBits (pdField w)) (immField w)
  | .bclr => .bclr
  | .bput => .bput (immField w) (wField w)
  | .bputb => .bputb (bitField w)
  | .bget => .bget (immField w)
  | .bcnt => .bcnt
  | .brdb => .brdb (immField w)
  | .rsenc => .rsenc
  | .cwrd => .cwrd (immField w)
  | .mxclr => .mxclr
  | .mxfind => .mxfind
  | .mxplace => .mxplace
  | .mxrd => .mxrd (hiByteField w) (loByteField w)
  | .mxdark => .mxdark (hiByteField w) (loByteField w)
  | .mxsize => .mxsize

/-- Why a word is illegal: the three reasons of R87. -/
inductive Illegal where
  /-- The opcode is not one of the thirty. -/
  | unknownOpcode (opc : BitVec 8)
  /-- A must-be-zero bit of the row is 1. -/
  | mustBeZero (op : Op)
  /-- A BPUT with `w` in 17..31. -/
  | widthOver16
  deriving DecidableEq, Repr

/-- Decoding, total on every word (R88): a word selects the row of its opcode iff `W and mask = match`, with
the one extra condition on BPUT's width (R86). -/
def decode (w : Word) : Except Illegal Instr :=
  match opOfCode (opcField w) with
  | none => .error (.unknownOpcode (opcField w))
  | some op =>
    if w &&& op.mask = op.patt then
      if (readOperands op w).wellFormed then .ok (readOperands op w) else .error .widthOver16
    else .error (.mustBeZero op)

/-! ### The encoder -/

/-- The row of a command. -/
def opOf : Instr → Op
  | .nop => .nop
  | .rdst => .rdst
  | .rdcfg _ => .rdcfg
  | .srst => .srst
  | .gflog _ => .gflog
  | .gfexp _ => .gfexp
  | .gfmul _ _ => .gfmul
  | .gfadd _ _ => .gfadd
  | .pclr _ => .pclr
  | .ppush _ _ => .ppush
  | .pshl _ _ => .pshl
  | .plen _ => .plen
  | .pget _ _ => .pget
  | .pmul _ _ _ => .pmul
  | .pmod _ _ _ => .pmod
  | .pgen _ _ => .pgen
  | .bclr => .bclr
  | .bput _ _ => .bput
  | .bputb _ => .bputb
  | .bget _ => .bget
  | .bcnt => .bcnt
  | .brdb _ => .brdb
  | .rsenc => .rsenc
  | .cwrd _ => .cwrd
  | .mxclr => .mxclr
  | .mxfind => .mxfind
  | .mxplace => .mxplace
  | .mxrd _ _ => .mxrd
  | .mxdark _ _ => .mxdark
  | .mxsize => .mxsize

/-- Format Z. -/
def fmtZ (op : Op) : Word := op.code ++ 0#24
/-- Format A: `a` in bits 7:0. -/
def fmtA (op : Op) (a : Byte) : Word := op.code ++ 0#16 ++ a
/-- Formats AB and RC: the first byte in bits 15:8, the second in bits 7:0. -/
def fmtAB (op : Op) (a b : Byte) : Word := op.code ++ 0#8 ++ a ++ b
/-- Format I: `imm16` in bits 15:0. -/
def fmtI (op : Op) (imm : Half) : Word := op.code ++ 0#8 ++ imm
/-- Format P: `pd`, `pa`, `pb` in bits 23:18, bits 17:16 zero, `imm16` in bits 15:0; a field the command does
not use is zero (R81). -/
def fmtP (op : Op) (pd pa pb : BitVec 2) (imm : Half) : Word := op.code ++ pd ++ pa ++ pb ++ 0#2 ++ imm
/-- Format W: bits 23:21 zero, `w` in bits 20:16, `v` in bits 15:0. -/
def fmtW (op : Op) (w : BitVec 5) (v : Half) : Word := op.code ++ 0#3 ++ w ++ v
/-- Format B: bits 23:1 zero, `bit` in bit 0. -/
def fmtB (op : Op) (bit : Bool) : Word := op.code ++ 0#23 ++ BitVec.ofBool bit

/-- The word of a command (R81, R86). -/
def encode : Instr → Word
  | .nop => fmtZ .nop
  | .rdst => fmtZ .rdst
  | .rdcfg sel => fmtI .rdcfg sel
  | .srst => fmtZ .srst
  | .gflog a => fmtA .gflog a
  | .gfexp n => fmtI .gfexp n
  | .gfmul a b => fmtAB .gfmul a b
  | .gfadd a b => fmtAB .gfadd a b
  | .pclr pd => fmtP .pclr (pregBits pd) 0 0 0
  | .ppush pd c => fmtP .ppush (pregBits pd) 0 0 (0#8 ++ c)
  | .pshl pd sh => fmtP .pshl (pregBits pd) 0 0 sh
  | .plen pa => fmtP .plen 0 (pregBits pa) 0 0
  | .pget pa idx => fmtP .pget 0 (pregBits pa) 0 idx
  | .pmul pd pa pb => fmtP .pmul (pregBits pd) (pregBits pa) (pregBits pb) 0
  | .pmod pd pa pb => fmtP .pmod (pregBits pd) (pregBits pa) (pregBits pb) 0
  | .pgen pd k => fmtP .pgen (pregBits pd) 0 0 k
  | .bclr => fmtZ .bclr
  | .bput v w => fmtW .bput w v
  | .bputb bit => fmtB .bputb bit
  | .bget idx => fmtI .bget idx
  | .bcnt => fmtZ .bcnt
  | .brdb j => fmtI .brdb j
  | .rsenc => fmtZ .rsenc
  | .cwrd idx => fmtI .cwrd idx
  | .mxclr => fmtZ .mxclr
  | .mxfind => fmtZ .mxfind
  | .mxplace => fmtZ .mxplace
  | .mxrd row col => fmtAB .mxrd row col
  | .mxdark row col => fmtAB .mxdark row col
  | .mxsize => fmtZ .mxsize

/-- The command the decoder reads from an opcode-table row's bits `w`, `nbits` of them: a command is ONE
32-bit word (R80), so the table's bit numbers are the word's own. -/
def decodeTableWord (nbits w : Nat) : Option Instr :=
  match decode (BitVec.ofNat 32 (w % 2 ^ nbits)) with
  | .ok i => some i
  | .error _ => none

end Sys2Proof
end

