-- ==== Sys2Proof/Config.lean ====
section
/-! DEFINITION. The parameters of an instance (00_scope.md R8 to R11), which the spec leaves open, and
the conditions under which they are an instance of this hardware at all. -/

namespace Sys2Proof

/-- The parameters of rule R8, constant for the life of an instance. The model holds them in the state as
plain data, so that a statement about every state is a statement about every instance (log 1). -/
structure Config where
  /-- `N`: the matrix is `N x N`. -/
  n : Nat
  /-- `DATA_COUNT`: number of data codewords. -/
  dataCount : Nat
  /-- `EC_COUNT`: number of correction codewords. -/
  ecCount : Nat
  /-- `TIMING_COL`: the column the placer skips. -/
  timingCol : Nat
  /-- `POLY_MAX`: coefficient capacity of a polynomial register. -/
  polyMax : Nat
  deriving DecidableEq, Repr

/-- `TOTAL_COUNT = DATA_COUNT + EC_COUNT` (R8). -/
def Config.totalCount (c : Config) : Nat := c.dataCount + c.ecCount

/-- The `s` of rule R10: the cells of the timing column that a finder stamp touches. -/
def Config.stampedInTiming (c : Config) : Nat :=
  if c.timingCol ≤ 7 then 16 else if c.timingCol ≥ c.n - 8 then 8 else 0

/-- `AVAIL` (R10): the number of cells the placer can write. -/
def Config.avail (c : Config) : Nat := c.n * c.n - 192 - (c.n - c.stampedInTiming)

/-- The constraints of rules R8 and R10. Parameters that break one are not an instance of this hardware:
a precondition of building the machine, never a check at run time (R273). -/
abbrev Config.Valid (c : Config) : Prop :=
  c.n % 2 = 1 ∧ 17 ≤ c.n ∧ c.n ≤ 255 ∧
  1 ≤ c.dataCount ∧ 1 ≤ c.ecCount ∧
  8 * c.totalCount ≤ c.avail ∧
  c.timingCol % 2 = 0 ∧ 2 ≤ c.timingCol ∧ c.timingCol ≤ c.n - 1 ∧
  c.totalCount ≤ c.polyMax ∧ c.ecCount + 1 ≤ c.polyMax ∧ c.polyMax ≤ 65535

/-- Reference instance TINY17 (R11). -/
def Config.tiny17 : Config := ⟨17, 7, 5, 6, 64⟩

/-- Reference instance REF25 (R11). -/
def Config.ref25 : Config := ⟨25, 34, 10, 6, 64⟩

/-- The parameters of the host's payload sequence, which the hardware never sees (R9, R171). -/
structure HostParams where
  /-- `MODE_BYTE`: the 4-bit mode indicator. -/
  modeByte : BitVec 4
  /-- `TERMINATOR`: the 4-bit terminator. -/
  terminator : BitVec 4
  deriving DecidableEq, Repr

/-- The reference values of R9. PRESUMED: the spec itself takes them from general knowledge (log 13). -/
def HostParams.reference : HostParams := ⟨0b0100#4, 0b0000#4⟩

end Sys2Proof
end

