-- ==== Sys2Proof/Machine/State.lean ====
section
/-! DEFINITION. The state of CORE (10_state.md R20 to R40) as plain data, and its reset values (R39). -/

namespace Sys2Proof.Machine

/-- The seven fault codes of `STATUS.FAULT` (60_exceptions.md R241). Raising one is a NEXT state (R247), never
a stop of the machine. -/
inductive FaultCode where
  | domain | capacity | index | sequence | illegal | divzero | polyovf
  deriving DecidableEq, Repr

/-- `STATUS.MXP`, the matrix phase (R34). -/
inductive Phase where
  | cleared | stamped | placed
  deriving DecidableEq, Repr

/-- The three values of a matrix cell (R33). -/
inductive Cell where
  | unset | light | dark
  deriving DecidableEq, Repr

/-- The state. Constants of an instance (`EXP`, `LOG`, `GEN`) are definitions (R38); the placer's cursor and
the reducer's working copy never survive a command and are no state (R37). -/
structure State where
  /-- The instance's parameters, which RDCFG reads and nothing writes (R8, R35; log 1). -/
  cfg : Config
  /-- `P[0]`, highest degree first (R25). -/
  p0 : List Byte
  /-- `P[1]`. -/
  p1 : List Byte
  /-- `P[2]`. -/
  p2 : List Byte
  /-- `P[3]`. -/
  p3 : List Byte
  /-- `BUF`, `DATA_COUNT` bytes (R28). -/
  buf : List Byte
  /-- `COUNT`, the number of bits written (R28). -/
  count : Nat
  /-- `CW` and `STATUS.CWV` in one home: `CW` has a value only while `CWV = 1` (R31), and `none` is `CWV = 0`
  (log 5). -/
  cw : Option (List Byte)
  /-- `MX`, `N` rows of `N` cells (R32). -/
  mx : List (List Cell)
  /-- `STATUS.FAULT`; `none` is code 0 (R34). -/
  faultCode : Option FaultCode
  /-- `STATUS.MXP` (R34). -/
  mxp : Phase
  /-- The response port (R39, R84): the answer to the last command, or none pending (log 4). -/
  response : Option Word
  /-- The MODEL'S own field: the command words the host has yet to be served, first to last (R38; log 2). -/
  port : List Word
  deriving DecidableEq, Repr

/-- Reasons for which a step could stop with a fault. NONE: every fault of this hardware is reported in the
response and the machine goes on (R247, R252; log 7). Nothing raises one, which is safe. -/
inductive Fault where
  deriving DecidableEq, Repr

/-- Reasons for which a step could refuse. -/
inductive Refusal where
  /-- An arm of `exec` that has no meaning yet. No arm raises it (safe). -/
  | notModelled (mnemonic : String)
  deriving DecidableEq, Repr

/-- The state right after reset of the instance with parameters `c` (R39): registers and buffer empty, `CW`
without a value, the matrix all UNSET, `STATUS = 0`, no response pending, no command sent. -/
def State.resetOf (c : Config) : State where
  cfg := c
  p0 := []
  p1 := []
  p2 := []
  p3 := []
  buf := List.replicate c.dataCount 0
  count := 0
  cw := none
  mx := List.replicate c.n (List.replicate c.n .unset)
  faultCode := none
  mxp := .cleared
  response := none
  port := []

/-- Building an instance: parameters that break rule R8 or R10 are refused (R10, R257, R273). -/
def State.build (c : Config) : Option State := if c.Valid then some (State.resetOf c) else none

/-- The machine right after reset. The parameters are open (R8); this is the reference instance TINY17 (R11),
a DESIGN CHOICE (log 1). -/
def State.reset : State := State.resetOf .tiny17

end Sys2Proof.Machine
end

