-- ==== Sys2Proof/Machine/Flags.lean ====
section
/-! DEFINITION. The coded views of the state: fault code, phase, cell code, status word and response word
(10_state.md R33, R34; 30_encoding.md R84). -/

namespace Sys2Proof.Machine

/-- The code of a fault (R241). -/
def faultBits : FaultCode → BitVec 4
  | .domain => 1
  | .capacity => 2
  | .index => 3
  | .sequence => 4
  | .illegal => 5
  | .divzero => 6
  | .polyovf => 7

/-- `STATUS.FAULT`: 0 is none (R34). -/
def fcode : Option FaultCode → BitVec 4
  | none => 0
  | some f => faultBits f

/-- `STATUS.MXP` (R34). -/
def phaseBits : Phase → BitVec 2
  | .cleared => 0
  | .stamped => 1
  | .placed => 2

/-- A cell's code (R33). -/
def cellBits : Cell → BitVec 2
  | .unset => 0b00
  | .light => 0b10
  | .dark => 0b11

/-- `STATUS.CWV` (R31, R34). -/
def State.cwv (s : State) : Bool := s.cw.isSome

/-- `STATUS`: bits 15:7 zero, 6:5 `MXP`, 4 `CWV`, 3:0 `FAULT` (R34). -/
def State.statusWord (s : State) : Half :=
  0#9 ++ phaseBits s.mxp ++ BitVec.ofBool s.cwv ++ fcode s.faultCode

/-- The response word: 31 `ERR`, 30:28 zero, 27:24 `FCODE`, 23:16 zero, 15:0 `VAL` (R84). -/
def responseWord (err : Bool) (f : BitVec 4) (val : Half) : Word :=
  BitVec.ofBool err ++ 0#3 ++ f ++ 0#8 ++ val

end Sys2Proof.Machine
end

