-- ==== Sys2Proof/Machine/Matrix.lean ====
section
/-! DEFINITION. The Symbol Matrix Builder: cells, finder stamps and the placer (00_scope.md R16,
46_matrix.md R203 to R214). -/

namespace Sys2Proof.Machine

/-- `MX[row][col]` (R32). -/
def cellAt (mx : List (List Cell)) (r c : Nat) : Cell := (mx.getD r []).getD c .unset

/-- `MX[row][col] <- v`. -/
def setCell (mx : List (List Cell)) (r c : Nat) (v : Cell) : List (List Cell) :=
  mx.modify r (fun row => row.set c v)

/-- Bit `i` of a byte store, most significant bit of each byte first: the buffer's bits (R62) and the
placer's (R64, R213). -/
def storeBit (l : List Byte) (i : Nat) : Bool := (l.getD (i / 8) 0).getLsbD (7 - i % 8)

/-! ### Finder stamps -/

/-- `fdark(dr, dc)` (R205): the outer ring and the 3 x 3 core of the 7 x 7 footprint. -/
def fdark (dr dc : Int) : Bool :=
  decide (0 ≤ dr) && decide (dr ≤ 6) && decide (0 ≤ dc) && decide (dc ≤ 6) &&
    (decide (dr = 0) || decide (dr = 6) || decide (dc = 0) || decide (dc = 6) ||
      (decide (2 ≤ dr) && decide (dr ≤ 4) && decide (2 ≤ dc) && decide (dc ≤ 4)))

/-- The top-left cells of the three footprints, in the order they are stamped (R203, R204). -/
def corners (n : Nat) : List (Int × Int) := [(0, 0), (0, (n : Int) - 7), ((n : Int) - 7, 0)]

/-- What the stamp of one corner writes to cell `(r, c)`, if it reaches it (R203, R206): `dr` and `dc` in
`-1..7`. Cells outside the grid are dropped because only cells of the grid are asked for. -/
def stampOf (r c : Nat) (corner : Int × Int) : Option Cell :=
  let dr : Int := (r : Int) - corner.1
  let dc : Int := (c : Int) - corner.2
  if -1 ≤ dr ∧ dr ≤ 7 ∧ -1 ≤ dc ∧ dc ≤ 7 then some (if fdark dr dc then .dark else .light) else none

/-- What MXFIND writes to cell `(r, c)` of an `n x n` grid, if anything; a later stamp would overwrite an
earlier one (R203; they never overlap, R208; log 10). -/
def stampValue (n r c : Nat) : Option Cell := (corners n).reverse.findSome? (stampOf r c)

/-- MXFIND's writes to the whole grid (R203), cell by cell. -/
def stampGrid (n : Nat) (mx : List (List Cell)) : List (List Cell) :=
  mx.mapIdx (fun r row => row.mapIdx (fun c v => (stampValue n r c).getD v))

/-! ### The placer -/

/-- The right-hand columns of the column pairs, from column `col` leftward (R209, R210, R212): a pair that
would start in the timing column moves one column left. There are at most `pairs` of them. -/
def rightColumns (timingCol : Nat) (pairs : Nat) (col : Nat) : List Nat :=
  match pairs with
  | 0 => []
  | k + 1 =>
    if 0 < col then
      let c := if col = timingCol then col - 1 else col
      c :: rightColumns timingCol k (c - 2)
    else []

/-- The rows of a sweep: bottom to top when it goes up (R211). -/
def sweepRows (n : Nat) (up : Bool) : List Nat := if up then (List.range n).reverse else List.range n

/-- The cells one sweep looks at: in each row the right column of the pair, then the left (R211). -/
def sweepCells (n : Nat) (up : Bool) (c : Nat) : List (Nat × Nat) :=
  (sweepRows n up).flatMap (fun r => [(r, c), (r, c - 1)])

/-- The sweeps of the pairs, whose directions alternate (R211). -/
def sweeps (n : Nat) (up : Bool) (cols : List Nat) : List (Nat × Nat) :=
  match cols with
  | [] => []
  | c :: cs => sweepCells n up c ++ sweeps n (!up) cs

/-- The cells in the order MXPLACE looks at them: pairs from the rightmost leftward, the first sweep upward
from the bottom row (R209 to R212). -/
def visitOrder (c : Config) : List (Nat × Nat) :=
  sweeps c.n true (rightColumns c.timingCol c.n (c.n - 1))

/-- One look of the placer (R209): an UNSET cell takes the next codeword bit, or LIGHT when the bits have run
out (R213, R214); a decided cell is skipped without consuming a bit. The pair holds the matrix and `k`. -/
def placeCell (cw : List Byte) (totalCount : Nat) (st : List (List Cell) × Nat) (rc : Nat × Nat) :
    List (List Cell) × Nat :=
  if cellAt st.1 rc.1 rc.2 = .unset then
    (setCell st.1 rc.1 rc.2
      (if decide (st.2 < 8 * totalCount) && storeBit cw st.2 then .dark else .light), st.2 + 1)
  else st

/-- The traversal of MXPLACE (R209): the matrix it leaves and the number of cells written. -/
def placeAll (c : Config) (cw : List Byte) (mx : List (List Cell)) : List (List Cell) × Nat :=
  (visitOrder c).foldl (placeCell cw c.totalCount) (mx, 0)

end Sys2Proof.Machine
end

