-- ==== Sys2Proof/Machine/Operands.lean ====
section
/-! DEFINITION. The operand forms (30_encoding.md R82): register selectors and immediates. -/

namespace Sys2Proof.Machine

/-- `P[d]` (10_state.md R25). -/
def State.preg (s : State) : PReg → List Byte
  | .p0 => s.p0
  | .p1 => s.p1
  | .p2 => s.p2
  | .p3 => s.p3

/-- `P[d] <- v`: length and coefficients at once (00_scope.md R14). -/
def State.setPreg (s : State) (d : PReg) (v : List Byte) : State :=
  match d with
  | .p0 => { s with p0 := v }
  | .p1 => { s with p1 := v }
  | .p2 => { s with p2 := v }
  | .p3 => { s with p3 := v }

/-- GFEXP's operand: `sext_16(imm16)` (R82, R103). -/
def sext16 (n : Half) : Int := n.toInt

/-- A byte as the value field of a response. -/
def valOfByte (b : Byte) : Half := b.setWidth 16

/-- A count as the value field of a response. -/
def valOfNat (n : Nat) : Half := BitVec.ofNat 16 n

/-- A bit as the value field of a response. -/
def valOfBool (b : Bool) : Half := if b then 1 else 0

/-- The configuration word a selector names (10_state.md R35, 47_system.md R233). -/
def configWord (c : Config) (sel : Nat) : Option Nat :=
  [c.n, c.dataCount, c.ecCount, c.totalCount, c.timingCol, c.polyMax][sel]?

end Sys2Proof.Machine
end

