-- ==== Sys2Proof/Machine/Ops.lean ====
section
/-! DEFINITION. The shared operations: answering, faulting, lockout, reset, the bit buffer and the command port
(60_exceptions.md R247, R250; 43_bitbuf.md R151; 20_memory.md R70). -/

namespace Sys2Proof.Machine

/-- The response of a command that succeeded: `ERR = 0`, `FCODE` the fault code after the command (R84). -/
def State.answer (s : State) (val : Half) : State :=
  { s with response := some (responseWord false (fcode s.faultCode) val) }

/-- TAKING A FAULT (R247): no state is written but `STATUS.FAULT`, and the response is `ERR = 1`, `FCODE = f`,
`VAL = 0`. -/
def State.raise (s : State) (f : FaultCode) : State :=
  { s with faultCode := some f, response := some (responseWord true (faultBits f) 0) }

/-- The refusal of a command in lockout (R250): nothing is written, `FCODE` is the old code. -/
def State.refuse (s : State) : State :=
  { s with response := some (responseWord true (fcode s.faultCode) 0) }

/-- Check 1 of R251, lockout, before everything else of a command: it is refused while `FAULT` is not 0. -/
def unlessLocked (s : State) (t : State) : Host.Outcome State Fault Refusal :=
  match s.faultCode with
  | some _ => .next s.refuse
  | none => .next t

/-- `require c else F` (00_scope.md R14): every check of a command stands before its first write (R247). -/
def State.require (s : State) (c : Prop) [Decidable c] (f : FaultCode) (t : State) : State :=
  if c then t else s.raise f

/-- THE RETURN FROM LOCKOUT, what SRST writes (47_system.md R234, R253): everything but the constants goes back
to its reset value (R40). `CW` becomes unreadable. -/
def State.softReset (s : State) : State :=
  { s with
    p0 := [], p1 := [], p2 := [], p3 := []
    count := 0
    buf := List.replicate s.cfg.dataCount 0
    cw := none
    mx := List.replicate s.cfg.n (List.replicate s.cfg.n .unset)
    mxp := .cleared
    faultCode := none }

/-- Hardware reset, an input outside the command port (70_reset_and_hazards.md R270; log 12). -/
def State.hardReset (s : State) : State := State.resetOf s.cfg

/-- `putBit(b)` (R151): the bit goes to position `7 - (COUNT mod 8)` of byte `COUNT div 8`. -/
def State.putBit (s : State) (b : Bool) : State :=
  { s with
    buf := if b then s.buf.modify (s.count / 8) (fun x => x ||| ((1 : Byte) <<< (7 - s.count % 8)))
      else s.buf
    count := s.count + 1 }

/-- The loop of BPUT (R153): the low `w` bits of `v`, most significant of them first. -/
def State.putBits (v : Half) (w : Nat) (s : State) : State :=
  match w with
  | 0 => s
  | k + 1 => State.putBits v k (s.putBit (v.getLsbD k))

/-- The next command word the host sends, if there is one, and the state with it taken off the port (R70). -/
def State.takeCommand (s : State) : Option (Word × State) :=
  match s.port with
  | [] => none
  | w :: rest => some (w, { s with port := rest })

/-- No command on the port: CORE waits (R271; log 2). -/
def State.wait (s : State) : State := s

/-- What a word that matches no command does (30_encoding.md R87, R246): ILLEGAL, or in lockout a refusal. -/
def execIllegal (s : State) : Host.Outcome State Fault Refusal := unlessLocked s (s.raise .illegal)

/-- The host sends a command word ahead of those already queued. -/
def State.send (s : State) (w : Word) : State := { s with port := w :: s.port }

end Sys2Proof.Machine
end

