-- ==== Sys2Proof/Machine/BufferCommands.lean ====
section
/-! DEFINITION. The bit buffer commands BCLR, BPUT, BPUTB, BGET, BCNT, BRDB (43_bitbuf.md R152 to R157). -/

namespace Sys2Proof.Machine

/-- BCLR (R152): `CW` and `CWV` are not touched. -/
def execBclr (s : State) : Host.Outcome State Fault Refusal :=
  unlessLocked s (({ s with count := 0, buf := List.replicate s.cfg.dataCount 0 } : State).answer 0)

/-- BPUT (R153): all `w` bits or none, CAPACITY. A width above 16 has no word (R87); as a term it is ILLEGAL
(log 15). -/
def execBput (v : Half) (w : BitVec 5) (s : State) : Host.Outcome State Fault Refusal :=
  unlessLocked s
    (s.require (w.toNat ≤ 16) .illegal
      (s.require (s.count + w.toNat ≤ 8 * s.cfg.dataCount) .capacity
        ((State.putBits v w.toNat s).answer (valOfNat (s.count + w.toNat)))))

/-- BPUTB (R154). -/
def execBputb (bit : Bool) (s : State) : Host.Outcome State Fault Refusal :=
  unlessLocked s
    (s.require (s.count + 1 ≤ 8 * s.cfg.dataCount) .capacity
      ((s.putBit bit).answer (valOfNat (s.count + 1))))

/-- BGET (R155): INDEX at `COUNT` and beyond. -/
def execBget (idx : Half) (s : State) : Host.Outcome State Fault Refusal :=
  unlessLocked s
    (s.require (idx.toNat < s.count) .index (s.answer (valOfBool (storeBit s.buf idx.toNat))))

/-- BCNT (R156). -/
def execBcnt (s : State) : Host.Outcome State Fault Refusal :=
  unlessLocked s (s.answer (valOfNat s.count))

/-- BRDB (R157): INDEX for a byte that holds no written bit. -/
def execBrdb (j : Half) (s : State) : Host.Outcome State Fault Refusal :=
  unlessLocked s
    (s.require (8 * j.toNat < s.count) .index (s.answer (valOfByte (s.buf.getD j.toNat 0))))

end Sys2Proof.Machine
end

