-- ==== Sys2Proof/Machine/Poly.lean ====
section
/-! DEFINITION. Polynomial Arithmetic over the field: trimmed coefficient sequences, highest degree first
(00_scope.md R13, 42_poly.md R121 to R124), and the two functions RSENC is made of (45_rs.md R187, R188). -/

namespace Sys2Proof.Machine

/-- `trim(s)`: drop leading zero elements (R13, R121). -/
def trim : List Byte → List Byte
  | [] => []
  | c :: cs => if c = 0 then trim cs else c :: cs

/-- Exclusive-or the sequence `t` into `r` from index `i` on. -/
def xorAt (i : Nat) (t r : List Byte) : List Byte :=
  match t with
  | [] => r
  | c :: cs => xorAt (i + 1) cs (r.modify i (fun x => gadd x c))

/-- The loops of `mul` (R122): row `i` of the outer loop adds `a[i] * b` into `r` at offset `i`. -/
def mulRows (i : Nat) (a b r : List Byte) : List Byte :=
  match a with
  | [] => r
  | x :: xs => mulRows (i + 1) xs b (xorAt i (b.map (gmul x)) r)

/-- `mul(a, b)` (R122). -/
def polyMul (a b : List Byte) : List Byte :=
  if a = [] ∨ b = [] then [] else mulRows 0 a b (List.replicate (a.length + b.length - 1) 0)

/-- The divisor scaled by the leading-coefficient ratio: a zero coefficient contributes nothing and is not
looked up (R123). -/
def scaleBy (ratio : Int) (d : List Byte) : List Byte :=
  d.map (fun c => if c = 0 then 0 else gfExp ((logOf c : Int) + ratio))

/-- One pass of the loop of `mod` (R123), for `a` at least as long as `d`. -/
def modPass (a d : List Byte) : List Byte :=
  trim (xorAt 0 (scaleBy ((logOf (a.headD 0) : Int) - (logOf (d.headD 0) : Int)) d) a)

/-- The loop of `mod` (R123). Every pass removes at least one element (R279), so `len(a)` passes are enough. -/
def modLoop (passes : Nat) (a d : List Byte) : List Byte :=
  match passes with
  | 0 => a
  | n + 1 => if a.length < d.length then a else modLoop n (modPass a d) d

/-- `mod(a, d)` for trimmed `a` and trimmed nonempty `d` (R123). -/
def polyMod (a d : List Byte) : List Byte := modLoop a.length a d

/-- `gen(k)` (R124): the product of `[1, exp(i)]` for `i` in `0..k-1`. -/
def genPoly : Nat → List Byte
  | 0 => [1]
  | k + 1 => polyMul (genPoly k) [1, gfExp k]

/-- `msg(d)` (R187): the trimmed data bytes with `EC_COUNT` zeros appended; the zero polynomial stays empty. -/
def msgPoly (ecCount : Nat) (d : List Byte) : List Byte :=
  if trim d = [] then [] else trim d ++ List.replicate ecCount 0

/-- A remainder zero-padded on the left to exactly `k` entries (R188). -/
def padLeft (k : Nat) (r : List Byte) : List Byte := List.replicate (k - r.length) 0 ++ r

/-- The codeword sequence of data bytes `d` (R188): the data, then the left-padded remainder of
`msg(d)` by `GEN = gen(EC_COUNT)` (R24, R186). -/
def codewords (ecCount : Nat) (d : List Byte) : List Byte :=
  d ++ padLeft ecCount (polyMod (msgPoly ecCount d) (genPoly ecCount))

end Sys2Proof.Machine
end

