-- ==== Sys2Proof/Machine/CodewordCommands.lean ====
section
/-! DEFINITION. The codeword commands RSENC, CWRD (45_rs.md R186 to R189). -/

namespace Sys2Proof.Machine

/-- RSENC (R188): SEQUENCE unless the buffer holds exactly `DATA_COUNT` whole bytes; it writes `CW` and sets
`CWV`, nothing else. -/
def execRsenc (s : State) : Host.Outcome State Fault Refusal :=
  unlessLocked s
    (s.require (s.count = 8 * s.cfg.dataCount) .sequence
      (({ s with cw := some (codewords s.cfg.ecCount s.buf) } : State).answer
        (valOfNat s.cfg.totalCount)))

/-- CWRD (R189): SEQUENCE while `CWV = 0`, then INDEX (R251). -/
def execCwrd (idx : Half) (s : State) : Host.Outcome State Fault Refusal :=
  unlessLocked s
    (match s.cw with
      | none => s.raise .sequence
      | some cw =>
        s.require (idx.toNat < s.cfg.totalCount) .index (s.answer (valOfByte (cw.getD idx.toNat 0))))

end Sys2Proof.Machine
end

