-- ==== Sys2Proof/Machine/FieldCommands.lean ====
section
/-! DEFINITION. The field commands GFLOG, GFEXP, GFMUL, GFADD (41_gf.md R102 to R105). They write no state when
they succeed. -/

namespace Sys2Proof.Machine

/-- GFLOG (R102): DOMAIN iff `a = 0` (R242). -/
def execGflog (a : Byte) (s : State) : Host.Outcome State Fault Refusal :=
  unlessLocked s
    (match gfLog a with
      | some l => s.answer (valOfNat l)
      | none => s.raise .domain)

/-- GFEXP (R103), for every 16-bit `n` read as a signed integer. -/
def execGfexp (n : Half) (s : State) : Host.Outcome State Fault Refusal :=
  unlessLocked s (s.answer (valOfByte (gfExp (sext16 n))))

/-- GFMUL (R104). -/
def execGfmul (a b : Byte) (s : State) : Host.Outcome State Fault Refusal :=
  unlessLocked s (s.answer (valOfByte (gmul a b)))

/-- GFADD (R105). -/
def execGfadd (a b : Byte) (s : State) : Host.Outcome State Fault Refusal :=
  unlessLocked s (s.answer (valOfByte (gadd a b)))

end Sys2Proof.Machine
end

