-- ==== Sys2Proof/Machine/MatrixCommands.lean ====
section
/-! DEFINITION. The matrix commands MXCLR, MXFIND, MXPLACE, MXRD, MXDARK, MXSIZE (46_matrix.md R201 to R217,
phases R219). -/

namespace Sys2Proof.Machine

/-- MXCLR (R201): legal in every phase. -/
def execMxclr (s : State) : Host.Outcome State Fault Refusal :=
  unlessLocked s
    (({ s with mx := List.replicate s.cfg.n (List.replicate s.cfg.n .unset), mxp := .cleared } :
      State).answer 0)

/-- MXFIND (R203): SEQUENCE unless the matrix is freshly cleared. -/
def execMxfind (s : State) : Host.Outcome State Fault Refusal :=
  unlessLocked s
    (s.require (s.mxp = .cleared) .sequence
      (({ s with mx := stampGrid s.cfg.n s.mx, mxp := .stamped } : State).answer 0))

/-- MXPLACE (R209): SEQUENCE unless the matrix is stamped and there is a codeword sequence; it answers the
number of cells written. -/
def execMxplace (s : State) : Host.Outcome State Fault Refusal :=
  unlessLocked s
    (s.require (s.mxp = .stamped) .sequence
      (match s.cw with
        | none => s.raise .sequence
        | some cw =>
          ({ s with mx := (placeAll s.cfg cw s.mx).1, mxp := .placed } : State).answer
            (valOfNat (placeAll s.cfg cw s.mx).2)))

/-- MXRD (R215): a cell's code, in every phase; INDEX outside the grid. -/
def execMxrd (row col : Byte) (s : State) : Host.Outcome State Fault Refusal :=
  unlessLocked s
    (s.require (row.toNat < s.cfg.n ∧ col.toNat < s.cfg.n) .index
      (s.answer ((cellBits (cellAt s.mx row.toNat col.toNat)).setWidth 16)))

/-- MXDARK (R216): SEQUENCE before placement is complete, then INDEX (R251); LIGHT and UNSET read 0. -/
def execMxdark (row col : Byte) (s : State) : Host.Outcome State Fault Refusal :=
  unlessLocked s
    (s.require (s.mxp = .placed) .sequence
      (s.require (row.toNat < s.cfg.n ∧ col.toNat < s.cfg.n) .index
        (s.answer (valOfBool (decide (cellAt s.mx row.toNat col.toNat = .dark))))))

/-- MXSIZE (R217): legal in every phase. -/
def execMxsize (s : State) : Host.Outcome State Fault Refusal :=
  unlessLocked s (s.answer (valOfNat s.cfg.n))

end Sys2Proof.Machine
end

