-- ==== Sys2Proof/Machine/PolyCommands.lean ====
section
/-! DEFINITION. The polynomial commands PCLR, PPUSH, PSHL, PLEN, PGET, PMUL, PMOD, PGEN (42_poly.md R125 to
R133). Source registers are read from the state before the command, so any of them may be the destination
(R133). -/

namespace Sys2Proof.Machine

/-- `P[pd] <- v`, answered with the new length. -/
def State.putPoly (s : State) (pd : PReg) (v : List Byte) : State :=
  (s.setPreg pd v).answer (valOfNat v.length)

/-- PCLR (R125). -/
def execPclr (pd : PReg) (s : State) : Host.Outcome State Fault Refusal :=
  unlessLocked s ((s.setPreg pd []).answer 0)

/-- PPUSH (R126): a leading zero is dropped; otherwise the coefficient is appended at the low-degree end, with
POLYOVF on a full register. -/
def execPpush (pd : PReg) (c : Byte) (s : State) : Host.Outcome State Fault Refusal :=
  unlessLocked s
    (if s.preg pd = [] ∧ c = 0 then s.answer 0
     else s.require ((s.preg pd).length < s.cfg.polyMax) .polyovf (s.putPoly pd (s.preg pd ++ [c])))

/-- PSHL (R127): append `s` zeros; the zero polynomial and a shift by 0 change nothing. -/
def execPshl (pd : PReg) (sh : Half) (s : State) : Host.Outcome State Fault Refusal :=
  unlessLocked s
    (if s.preg pd = [] ∨ sh = 0 then s.answer (valOfNat (s.preg pd).length)
     else s.require ((s.preg pd).length + sh.toNat ≤ s.cfg.polyMax) .polyovf
       (s.putPoly pd (s.preg pd ++ List.replicate sh.toNat 0)))

/-- PLEN (R128). -/
def execPlen (pa : PReg) (s : State) : Host.Outcome State Fault Refusal :=
  unlessLocked s (s.answer (valOfNat (s.preg pa).length))

/-- PGET (R129): INDEX at the length and beyond. -/
def execPget (pa : PReg) (idx : Half) (s : State) : Host.Outcome State Fault Refusal :=
  unlessLocked s
    (s.require (idx.toNat < (s.preg pa).length) .index
      (s.answer (valOfByte ((s.preg pa).getD idx.toNat 0))))

/-- PMUL (R130): the length of the product is checked first, POLYOVF. -/
def execPmul (pd pa pb : PReg) (s : State) : Host.Outcome State Fault Refusal :=
  unlessLocked s
    (s.require (s.preg pa = [] ∨ s.preg pb = [] ∨
        (s.preg pa).length + (s.preg pb).length - 1 ≤ s.cfg.polyMax) .polyovf
      (s.putPoly pd (polyMul (s.preg pa) (s.preg pb))))

/-- PMOD (R131): dividend `pa`, divisor `pb`; DIVZERO for an empty divisor. -/
def execPmod (pd pa pb : PReg) (s : State) : Host.Outcome State Fault Refusal :=
  unlessLocked s
    (s.require (s.preg pb ≠ []) .divzero (s.putPoly pd (polyMod (s.preg pa) (s.preg pb))))

/-- PGEN (R132): POLYOVF when `k + 1 > POLY_MAX`. -/
def execPgen (pd : PReg) (k : Half) (s : State) : Host.Outcome State Fault Refusal :=
  unlessLocked s
    (s.require (k.toNat + 1 ≤ s.cfg.polyMax) .polyovf
      ((s.setPreg pd (genPoly k.toNat)).answer (valOfNat (k.toNat + 1))))

end Sys2Proof.Machine
end

