-- ==== Sys2Proof/Machine/SystemCommands.lean ====
section
/-! DEFINITION. The system commands NOP, RDST, RDCFG, SRST (47_system.md R231 to R234), the only ones that
execute in lockout (60_exceptions.md R250). -/

namespace Sys2Proof.Machine

/-- NOP (R231); in lockout too. -/
def execNop (s : State) : Host.Outcome State Fault Refusal := .next (s.answer 0)

/-- RDST (R232); in lockout too. -/
def execRdst (s : State) : Host.Outcome State Fault Refusal := .next (s.answer s.statusWord)

/-- RDCFG (R233): in range it executes in lockout too; out of range it raises INDEX, or is refused in lockout
(R250, R254). -/
def execRdcfg (sel : Half) (s : State) : Host.Outcome State Fault Refusal :=
  match configWord s.cfg sel.toNat with
  | some v => .next (s.answer (valOfNat v))
  | none => unlessLocked s (s.raise .index)

/-- SRST (R234); in lockout too, and the only way out of it. -/
def execSrst (s : State) : Host.Outcome State Fault Refusal := .next (s.softReset.answer 0)

end Sys2Proof.Machine
end

