-- ==== Sys2Proof/Machine/Dispatch.lean ====
section
/-! DEFINITION. One arm per command, each a direct call of its meaning. -/

namespace Sys2Proof.Machine

def exec (i : Instr) (s : State) : Host.Outcome State Fault Refusal :=
  match i with
  | .nop => Sys2Proof.Machine.execNop s
  | .rdst => Sys2Proof.Machine.execRdst s
  | .rdcfg sel => Sys2Proof.Machine.execRdcfg sel s
  | .srst => Sys2Proof.Machine.execSrst s
  | .gflog a => Sys2Proof.Machine.execGflog a s
  | .gfexp n => Sys2Proof.Machine.execGfexp n s
  | .gfmul a b => Sys2Proof.Machine.execGfmul a b s
  | .gfadd a b => Sys2Proof.Machine.execGfadd a b s
  | .pclr pd => Sys2Proof.Machine.execPclr pd s
  | .ppush pd c => Sys2Proof.Machine.execPpush pd c s
  | .pshl pd sh => Sys2Proof.Machine.execPshl pd sh s
  | .plen pa => Sys2Proof.Machine.execPlen pa s
  | .pget pa idx => Sys2Proof.Machine.execPget pa idx s
  | .pmul pd pa pb => Sys2Proof.Machine.execPmul pd pa pb s
  | .pmod pd pa pb => Sys2Proof.Machine.execPmod pd pa pb s
  | .pgen pd k => Sys2Proof.Machine.execPgen pd k s
  | .bclr => Sys2Proof.Machine.execBclr s
  | .bput v w => Sys2Proof.Machine.execBput v w s
  | .bputb bit => Sys2Proof.Machine.execBputb bit s
  | .bget idx => Sys2Proof.Machine.execBget idx s
  | .bcnt => Sys2Proof.Machine.execBcnt s
  | .brdb j => Sys2Proof.Machine.execBrdb j s
  | .rsenc => Sys2Proof.Machine.execRsenc s
  | .cwrd idx => Sys2Proof.Machine.execCwrd idx s
  | .mxclr => Sys2Proof.Machine.execMxclr s
  | .mxfind => Sys2Proof.Machine.execMxfind s
  | .mxplace => Sys2Proof.Machine.execMxplace s
  | .mxrd row col => Sys2Proof.Machine.execMxrd row col s
  | .mxdark row col => Sys2Proof.Machine.execMxdark row col s
  | .mxsize => Sys2Proof.Machine.execMxsize s

end Sys2Proof.Machine
end

