-- ==== Sys2Proof/Machine/Step.lean ====
section
/-! DEFINITION. One step: CORE takes one command word from its port, runs it completely and answers it
(20_memory.md R70). There is no program counter and no instruction memory (10_state.md R36). -/

namespace Sys2Proof.Machine

/-- One command (R70); with no command on the port CORE waits (R271). -/
def step (s : State) : Host.Outcome State Fault Refusal :=
  match s.takeCommand with
  | none => .next s.wait
  | some (w, s') =>
    match decode w with
    | .ok i => exec i s'
    | .error _ => execIllegal s'

/-- The state in which the next step runs the command word `w`: the host sends it ahead of the words already
queued, and nothing else changes (log 3). -/
def State.withFetchWord (s : State) (nbits w : Nat) : State :=
  s.send (BitVec.ofNat 32 (w % 2 ^ nbits))

end Sys2Proof.Machine
end

