-- ==== Sys2Proof/Machine/HostSequence.lean ====
section
/-! DEFINITION. What a host sends: the pseudo-commands (30_encoding.md R91) and the Byte-Mode Payload Encoder
(44_payload_host.md R170 to R180), which is a normative host procedure and not hardware (00_scope.md R6). Nothing
here adds state or commands to CORE. -/

namespace Sys2Proof.Machine

/-- `PSET Pd, [c0, ..., cn]` (R91). -/
def hostPset (pd : PReg) (cs : List Byte) : List Instr := .pclr pd :: cs.map (Instr.ppush pd)

/-- `BPUT8 b` (R91). -/
def hostBput8 (b : Half) : Instr := .bput b 8

/-- `MXBUILD` (R91). -/
def hostMxbuild : List Instr := [.mxclr, .mxfind, .mxplace]

/-- The host's capacity check (R172): the text length `len` fits in 8 bits and the text fits the buffer. -/
abbrev hostAccepts (dataCount len : Nat) : Prop := len ≤ 255 ∧ 12 + 8 * len ≤ 8 * dataCount

/-- The byte of a character with code point `cp`: `cp and 0xFF` (R170; log 14). -/
def charByte (cp : Nat) : Half := BitVec.ofNat 16 (cp % 256)

/-- The header and the characters (R173, R174). -/
def hostText (h : HostParams) (text : List Nat) : List Instr :=
  [.bclr, .bput (h.modeByte.setWidth 16) 4, .bput (BitVec.ofNat 16 text.length) 8] ++
    text.map (fun cp => hostBput8 (charByte cp))

/-- The terminator, if there is room for it after `count` bits (R175). -/
def hostTerminator (h : HostParams) (dataCount count : Nat) : List Instr :=
  if count + 4 ≤ 8 * dataCount then [.bput (h.terminator.setWidth 16) 4] else []

/-- Zero bits to the next byte boundary (R176). -/
def hostBitPad (count : Nat) : List Instr := List.replicate ((8 - count % 8) % 8) (.bputb false)

/-- The filler bytes 0xEC and 0x11 in turn, until `cap` bits have been written (R177). -/
def hostFiller (cap : Nat) (fuel : Nat) (count : Nat) (second : Bool) : List Instr :=
  match fuel with
  | 0 => []
  | k + 1 =>
    if count < cap then
      hostBput8 (if second then 0x11 else 0xEC) :: hostFiller cap k (count + 8) (!second)
    else []

/-- The bits a command of the payload sequence writes. -/
def bitsWritten : Instr → Nat
  | .bput _ w => w.toNat
  | .bputb _ => 1
  | _ => 0

/-- The bits a command list writes. -/
def totalBits (is : List Instr) : Nat := (is.map bitsWritten).sum

/-- `PAYLOAD "text"` (R178): R172 to R177 in that order; a rejected text gives no command. -/
def hostPayload (h : HostParams) (dataCount : Nat) (text : List Nat) : Option (List Instr) :=
  if hostAccepts dataCount text.length then
    let body := hostText h text
    let ended := body ++ hostTerminator h dataCount (totalBits body)
    let padded := ended ++ hostBitPad (totalBits ended)
    some (padded ++ hostFiller (8 * dataCount) dataCount (totalBits padded) false)
  else none

/-- `ENCODE "text"` (R179): a whole encode call; if the check rejects, the host issues nothing. -/
def hostEncode (h : HostParams) (dataCount : Nat) (text : List Nat) : Option (List Instr) :=
  (hostPayload h dataCount text).map (fun p => .srst :: (p ++ .rsenc :: hostMxbuild))

/-- `ERR` of a response word (R84). -/
def responseErr (w : Word) : Bool := w.getLsbD 31

/-- A host that sends a command list and stops at the first response with `ERR = 1` (R91): the responses it
got, in order, and the state it left CORE in. -/
def hostRun (is : List Instr) (s : State) : List Word × State :=
  match is with
  | [] => ([], s)
  | i :: rest =>
    match exec i s with
    | .next t =>
      match t.response with
      | some r => if responseErr r then ([r], t) else (r :: (hostRun rest t).1, (hostRun rest t).2)
      | none => ([], t)
    | .fault _ => ([], s)
    | .refused _ => ([], s)

end Sys2Proof.Machine
end

