-- ==== Sys2Proof/Safety.lean ====
section
/-! DEFINITION. The terms the claims use: the invariant of every reachable state, which command faults when by the
rules of 60_exceptions.md, which stores a command may write, and reference forms of the arithmetic. Nothing here
is used by the machine. -/

namespace Sys2Proof.Machine

/-! ### The invariant (10_state.md R26, R28 to R33; 46_matrix.md R218) -/

/-- R26: `len = 0` or `c[0] ≠ 0`. -/
abbrev NormalForm (p : List Byte) : Prop := p = [] ∨ p.headD 0 ≠ 0

/-- R25, R26: a polynomial register holds at most `POLY_MAX` coefficients, in normal form. -/
abbrev PolyOk (c : Config) (p : List Byte) : Prop := p.length ≤ c.polyMax ∧ NormalForm p

/-- All four registers. -/
abbrev State.PolyInv (s : State) : Prop :=
  PolyOk s.cfg s.p0 ∧ PolyOk s.cfg s.p1 ∧ PolyOk s.cfg s.p2 ∧ PolyOk s.cfg s.p3

/-- R28, R29: the buffer has `DATA_COUNT` bytes, `COUNT` is in range, and every bit at `COUNT` or above is 0. -/
abbrev State.BufInv (s : State) : Prop :=
  s.buf.length = s.cfg.dataCount ∧ s.count ≤ 8 * s.cfg.dataCount ∧
    ∀ i, i < 8 * s.cfg.dataCount → s.count ≤ i → storeBit s.buf i = false

/-- R30: `CW` has `TOTAL_COUNT` bytes. -/
abbrev State.CwInv (s : State) : Prop := ∀ l ∈ s.cw, l.length = s.cfg.totalCount

/-- R32: `N` rows of `N` cells. -/
abbrev GridShape (n : Nat) (mx : List (List Cell)) : Prop := mx.length = n ∧ ∀ row ∈ mx, row.length = n

/-- What a cell may hold in a phase: all UNSET; the stamps and UNSET around them; or the placed matrix of R218
(a), (b), (c): the stamps untouched, the timing column UNSET outside them, every other cell decided. -/
def cellOk (c : Config) (p : Phase) (row col : Nat) (v : Cell) : Bool :=
  match p, stampValue c.n row col with
  | .cleared, _ => decide (v = .unset)
  | .stamped, some x => decide (v = x)
  | .stamped, none => decide (v = .unset)
  | .placed, some x => decide (v = x)
  | .placed, none => if col = c.timingCol then decide (v = .unset) else decide (v ≠ .unset)

/-- R32, R34: the matrix is a grid and its cells agree with `STATUS.MXP`. -/
abbrev State.MxInv (s : State) : Prop :=
  GridShape s.cfg.n s.mx ∧
    ∀ row, row < s.cfg.n → ∀ col, col < s.cfg.n → cellOk s.cfg s.mxp row col (cellAt s.mx row col) = true

/-- THE INVARIANT: a state of a valid instance with all stores well formed. It rules out only states that no run of
a valid instance reaches. -/
abbrev State.Inv (s : State) : Prop :=
  s.cfg.Valid ∧ s.PolyInv ∧ s.BufInv ∧ s.CwInv ∧ s.MxInv

/-! ### When a command faults (60_exceptions.md R241 to R251) -/

/-- The four words that execute in lockout (R250). -/
def executesInLockout : Instr → Bool
  | .nop => true
  | .rdst => true
  | .srst => true
  | .rdcfg sel => decide (sel.toNat ≤ 5)
  | _ => false

/-- Step 3 of R251: the SEQUENCE conditions of R245. -/
def sequenceCheck (i : Instr) (s : State) : Option FaultCode :=
  let bad : Bool :=
    match i with
    | .rsenc => decide (s.count ≠ 8 * s.cfg.dataCount)
    | .cwrd _ => !s.cwv
    | .mxfind => decide (s.mxp ≠ .cleared)
    | .mxplace => !s.cwv || decide (s.mxp ≠ .stamped)
    | .mxdark _ _ => decide (s.mxp ≠ .placed)
    | _ => false
  if bad then some .sequence else none

/-- Step 4 of R251: the INDEX conditions of R244, and DIVZERO (R248). -/
def rangeCheck (i : Instr) (s : State) : Option FaultCode :=
  match i with
  | .pget pa idx => if (s.preg pa).length ≤ idx.toNat then some .index else none
  | .bget idx => if s.count ≤ idx.toNat then some .index else none
  | .brdb j => if s.count ≤ 8 * j.toNat then some .index else none
  | .cwrd idx => if s.cfg.totalCount ≤ idx.toNat then some .index else none
  | .mxrd row col => if s.cfg.n ≤ row.toNat ∨ s.cfg.n ≤ col.toNat then some .index else none
  | .mxdark row col => if s.cfg.n ≤ row.toNat ∨ s.cfg.n ≤ col.toNat then some .index else none
  | .rdcfg sel => if 6 ≤ sel.toNat then some .index else none
  | .pmod _ _ pb => if (s.preg pb).length = 0 then some .divzero else none
  | _ => none

/-- Step 5 of R251: CAPACITY (R243) and POLYOVF (R249). -/
def sizeCheck (i : Instr) (s : State) : Option FaultCode :=
  match i with
  | .bput _ w => if 8 * s.cfg.dataCount < s.count + w.toNat then some .capacity else none
  | .bputb _ => if 8 * s.cfg.dataCount < s.count + 1 then some .capacity else none
  | .ppush pd c =>
    if ¬((s.preg pd).length = 0 ∧ c = 0) ∧ s.cfg.polyMax ≤ (s.preg pd).length then some .polyovf else none
  | .pshl pd sh =>
    if (s.preg pd).length ≠ 0 ∧ sh.toNat ≠ 0 ∧ s.cfg.polyMax < (s.preg pd).length + sh.toNat then
      some .polyovf else none
  | .pmul _ pa pb =>
    if (s.preg pa).length ≠ 0 ∧ (s.preg pb).length ≠ 0 ∧
        s.cfg.polyMax + 1 < (s.preg pa).length + (s.preg pb).length then some .polyovf else none
  | .pgen _ k => if s.cfg.polyMax < k.toNat + 1 then some .polyovf else none
  | _ => none

/-- Step 6 of R251: DOMAIN (R242). -/
def domainCheck (i : Instr) : Option FaultCode :=
  match i with
  | .gflog a => if a = 0 then some .domain else none
  | _ => none

/-- The fault of a legal command out of lockout: the first failing check decides (R251). -/
def faultByRules (i : Instr) (s : State) : Option FaultCode :=
  ((sequenceCheck i s).or (rangeCheck i s)).or ((sizeCheck i s).or (domainCheck i))

/-! ### Which stores a command may write (20_memory.md R60, column "written by") -/

/-- The commands that may write `P[d]`. -/
def mayWritePreg (d : PReg) : Instr → Bool
  | .pclr pd => decide (pd = d)
  | .ppush pd _ => decide (pd = d)
  | .pshl pd _ => decide (pd = d)
  | .pmul pd _ _ => decide (pd = d)
  | .pmod pd _ _ => decide (pd = d)
  | .pgen pd _ => decide (pd = d)
  | .srst => true
  | _ => false

/-- The commands that may write `BUF` and `COUNT`. -/
def mayWriteBuf : Instr → Bool
  | .bclr => true
  | .bput _ _ => true
  | .bputb _ => true
  | .srst => true
  | _ => false

/-- The commands that may write `CW` and `CWV`. -/
def mayWriteCw : Instr → Bool
  | .rsenc => true
  | .srst => true
  | _ => false

/-- The commands that may write `MX` and `MXP`. -/
def mayWriteMx : Instr → Bool
  | .mxclr => true
  | .mxfind => true
  | .mxplace => true
  | .srst => true
  | _ => false

/-! ### Response words as R84 writes them -/

/-- `0x0000vvvv`: a command that succeeded out of lockout. -/
def okWord (v : Half) : Word := 0#16 ++ v

/-- `0x0f00vvvv`: a command that succeeded while `STATUS.FAULT` is `f`. -/
def okWordAt (f : BitVec 4) (v : Half) : Word := 0#4 ++ f ++ 0#8 ++ v

/-- `0x8f000000`: a fault with code `f`, or a refusal in lockout with code `f`. -/
def faultWord (f : BitVec 4) : Word := 8#4 ++ f ++ 0#24

/-- `FCODE` of a response. -/
def responseFcode (w : Word) : BitVec 4 := w.extractLsb' 24 4

/-- `VAL` of a response. -/
def responseVal (w : Word) : Half := w.extractLsb' 0 16

/-- The state a fault with code `f` leaves (R247): only `STATUS.FAULT` and the response differ. -/
def afterFault (s : State) (f : FaultCode) : State :=
  { s with faultCode := some f, response := some (faultWord (faultBits f)) }

/-! ### Reference forms -/

/-- Multiplication of two bytes as polynomials over GF(2), reduced by `0x11D` as it goes: the sum of
`a * x^k` for the bits `k` of `b` (41_gf.md R106 (c), (d)). It uses no table. -/
def bitMul (a b : Byte) : Byte :=
  (List.range 8).foldl (fun acc k => if b.getLsbD k then acc ^^^ (xtime^[k] a) else acc) 0

/-- Coefficient `k` of a product, counted from the leading one: the sum of `a[i] * b[k-i]` (42_poly.md R122). -/
def convolution (a b : List Byte) (k : Nat) : Byte :=
  (List.range (k + 1)).foldl (fun acc i => gadd acc (gmul (a.getD i 0) (b.getD (k - i) 0))) 0

/-- `a xor' b`: coefficientwise exclusive-or aligned at the constant term, then trimmed (42_poly.md R134). -/
def polyAdd (a b : List Byte) : List Byte :=
  trim (List.zipWith gadd (padLeft (max a.length b.length) a) (padLeft (max a.length b.length) b))

/-- Evaluation by Horner's rule with `gmul` and exclusive-or (42_poly.md R134). -/
def hornerEval (p : List Byte) (x : Byte) : Byte := p.foldl (fun acc c => gadd (gmul acc x) c) 0

/-- The colour of a footprint's cell at `(dr, dc)` from its top-left cell (46_matrix.md R205). -/
def finderCell (dr dc : Int) : Cell := if fdark dr dc then .dark else .light

/-- The right-hand column of the `j`-th column pair, counted from the right (46_matrix.md R210). -/
def pairColumn (c : Config) (j : Nat) : Nat :=
  if c.timingCol < c.n - 1 - 2 * j then c.n - 1 - 2 * j else c.n - 2 - 2 * j

/-- The row the `j`-th sweep visits `k`-th: even sweeps go up from the bottom row, odd ones down from row 0
(46_matrix.md R211). -/
def pairRow (c : Config) (j k : Nat) : Nat := if j % 2 = 0 then c.n - 1 - k else k

/-- The cells of a matrix that the placer fills, in its order (46_matrix.md R213). -/
def freeCells (c : Config) (mx : List (List Cell)) : List (Nat × Nat) :=
  (visitOrder c).filter (fun rc => decide (cellAt mx rc.1 rc.2 = .unset))

end Sys2Proof.Machine
end

