-- ==== Sys2Proof/Certificates/Slice0/Obligations.lean ====
section
/-! DEFINITION. The statements for the provers. -/

open Sys2Proof Sys2Proof.Machine

/-! ### Encoding -/

/-- A few words written out from the opcode table (30_encoding.md R86) decode to the commands they stand for, and
three words are illegal for the three reasons of R87. -/
def Obligations.SpecWordsDecode : Prop :=
  decode 0x00000000#32 = .ok .nop ∧
  decode 0x1100FFFF#32 = .ok (.gfexp 0xFFFF#16) ∧
  decode 0x120053CA#32 = .ok (.gfmul 0x53#8 0xCA#8) ∧
  decode 0x2140001D#32 = .ok (.ppush .p1 0x1D#8) ∧
  decode 0x26C80000#32 = .ok (.pmod .p3 .p0 .p2) ∧
  decode 0x3110ABCD#32 = .ok (.bput 0xABCD#16 16#5) ∧
  decode 0x4100270F#32 = .ok (.cwrd 9999#16) ∧
  decode 0x5400100F#32 = .ok (.mxdark 16#8 15#8) ∧
  decode 0x99000000#32 = .error (.unknownOpcode 0x99#8) ∧
  decode 0x23C00000#32 = .error (.mustBeZero .plen) ∧
  decode 0x31110000#32 = .error .widthOver16

/-- Every well-formed command is what its word decodes to, with every operand at every value. -/
def Obligations.DecodeOfEncodeIsTheCommand : Prop :=
  ∀ i : Instr, i.wellFormed = true → decode (encode i) = .ok i

/-- Every legal word has one meaning: it is the word of the command it decodes to, which is well formed. -/
def Obligations.LegalWordsAreTheirCommandsWords : Prop :=
  ∀ (w : Word) (i : Instr), decode w = .ok i → i.wellFormed = true ∧ encode i = w

/-- R87: a word is illegal iff it matches no row of the table (BPUT's row with its condition on `w`); an illegal
word raises ILLEGAL and changes nothing else, and in lockout it is refused. -/
def Obligations.IllegalWordsAreThoseThatMatchNoRow : Prop :=
  (∀ w : Word, (∃ e, decode w = .error e) ↔
    ∀ op ∈ opTable, ¬(w &&& op.mask = op.patt ∧ (op = .bput → (wField w).toNat ≤ 16))) ∧
  (∀ (s : State) (w : Word) (rest : List Word) (e : Illegal), s.port = w :: rest → decode w = .error e →
    (s.faultCode = none → step s = .next (afterFault { s with port := rest } .illegal)) ∧
    ∀ f, s.faultCode = some f →
      step s = .next { s with port := rest, response := some (faultWord (faultBits f)) })

/-! ### The step -/

/-- A step runs the command its word decodes to, on the state with that word taken off the port (20_memory.md R70); with
no command on the port CORE waits (70_reset_and_hazards.md R271), and that a waiting step changes nothing is the model's
choice (log 2). -/
def Obligations.StepRunsTheDecodedCommandOrWaits : Prop :=
  (∀ (s : State) (w : Word) (rest : List Word) (i : Instr), s.port = w :: rest → decode w = .ok i →
    step s = exec i { s with port := rest }) ∧
  (∀ s : State, s.port = [] → step s = .next s)

/-- The machine never stops, and its configuration never changes: every step of every state answers a next state of the
same instance (60_exceptions.md R247, R252; 10_state.md R35). That faults of the hardware are next states and no step ends
in a stop of the model is the model's reading (log 7), and that a step with no command on the port answers a next state too
is the model's choice (log 2). -/
def Obligations.EveryStepAnswersANextState : Prop :=
  ∀ s : State, ∃ t, step s = .next t ∧ t.cfg = s.cfg

/-- Every command word is answered by one response word, laid out as R84 says: bits 30:28 and 23:16 zero, FCODE the
fault code after the command, ERR iff the command faulted or was refused, and then VAL is 0 and nothing but the
fault code was written. -/
def Obligations.EveryCommandIsAnsweredByOneResponseWord : Prop :=
  ∀ (s : State) (w : Word) (rest : List Word), s.port = w :: rest →
    ∃ t r, step s = .next t ∧ t.response = some r ∧ t.port = rest ∧
      r.extractLsb' 28 3 = 0#3 ∧ r.extractLsb' 16 8 = 0#8 ∧
      responseFcode r = fcode t.faultCode ∧
      (responseErr r = true ↔
        t.faultCode ≠ none ∧ ∀ i, decode w = .ok i → executesInLockout i = false) ∧
      (responseErr r = true → responseVal r = 0#16 ∧
        t = { s with port := rest, faultCode := t.faultCode, response := some r })

/-! ### Faults and lockout -/

/-- R247: a command that raises a fault out of lockout writes nothing but `STATUS.FAULT` and answers
`0x8f000000`. -/
def Obligations.AFaultWritesNothingButItsCode : Prop :=
  ∀ (s t : State) (w : Word) (rest : List Word) (f : FaultCode),
    s.faultCode = none → s.port = w :: rest → step s = .next t → t.faultCode = some f →
    t = { s with port := rest, faultCode := some f, response := some (faultWord (faultBits f)) }

/-- Out of lockout a legal command raises exactly the fault of its first failing check, in the order SEQUENCE, INDEX or
DIVZERO, CAPACITY or POLYOVF, DOMAIN, with the conditions of R242 to R245, R248 and R249 (60_exceptions.md R251). -/
def Obligations.TheFirstFailingCheckDecidesTheFault : Prop :=
  ∀ (i : Instr) (s : State), i.wellFormed = true → s.faultCode = none →
    ∃ t, exec i s = .next t ∧ t.faultCode = faultByRules i s

/-- R250: in lockout NOP, RDST, SRST and RDCFG with `sel <= 5` execute with `ERR = 0`, SRST leaving lockout; every
other word, legal or not, is refused with the old code and writes nothing. -/
def Obligations.LockoutRefusesEveryOtherWord : Prop :=
  ∀ (s : State) (w : Word) (rest : List Word) (f : FaultCode),
    s.faultCode = some f → s.port = w :: rest →
    (∀ i, decode w = .ok i → executesInLockout i = true →
      ∃ t r, step s = .next t ∧ t.response = some r ∧ responseErr r = false ∧
        responseFcode r = fcode t.faultCode ∧
        (i = .srst → t.faultCode = none) ∧
        (i ≠ .srst → t = { s with port := rest, response := some r })) ∧
    ((∀ i, decode w = .ok i → executesInLockout i = false) →
      step s = .next { s with port := rest, response := some (faultWord (faultBits f)) })

/-- The first fault code sticks: only the word of SRST ever changes it (60_exceptions.md R250, R254). That a step with no
command on the port leaves it too is the model's choice (log 2). -/
def Obligations.TheFirstFaultCodeSticks : Prop :=
  ∀ (s t : State) (f : FaultCode), s.faultCode = some f → step s = .next t →
    t.faultCode = some f ∨ (t.faultCode = none ∧ s.port.head? = some 0x03000000#32)

/-! ### Reset, status and configuration -/

/-- Reset leaves the values of R39 in every valid instance, and parameters that break R8 or R10 are not built. That the
model's reset state is the instance TINY17 is the model's choice (log 1). -/
def Obligations.ResetLeavesTheResetValues : Prop :=
  (∀ c : Config, c.Valid → ∃ s, State.build c = some s ∧ s.cfg = c ∧
    (∀ d, s.preg d = []) ∧ s.count = 0 ∧ s.buf.length = c.dataCount ∧
    (∀ j, j < c.dataCount → s.buf[j]? = some 0#8) ∧ s.cw = none ∧
    (∀ row col, row < c.n → col < c.n → cellAt s.mx row col = .unset) ∧
    s.statusWord = 0#16 ∧ s.response = none) ∧
  (∀ c : Config, ¬c.Valid → State.build c = none) ∧
  State.build .tiny17 = some State.reset

/-- R234: SRST puts back the reset state of the instance, whatever the state was, and answers `0x00000000`. -/
def Obligations.SrstRestoresTheResetState : Prop :=
  decode 0x03000000#32 = .ok .srst ∧
  ∀ s : State, exec .srst s =
    .next { State.resetOf s.cfg with port := s.port, response := some 0x00000000#32 }

/-- R231: NOP changes nothing and answers 0, in lockout too. -/
def Obligations.NopAnswersZeroAndChangesNothing : Prop :=
  decode 0x00000000#32 = .ok .nop ∧
  ∀ s : State, exec .nop s = .next { s with response := some (okWordAt (fcode s.faultCode) 0#16) }

/-- R232: RDST answers the status word, bits 3:0 FAULT, 4 CWV, 6:5 MXP, 15:7 zero, in lockout too, and changes
nothing. -/
def Obligations.RdstAnswersTheStatusWord : Prop :=
  decode 0x01000000#32 = .ok .rdst ∧
  ∀ s : State, ∃ v : Half,
    exec .rdst s = .next { s with response := some (okWordAt (fcode s.faultCode) v) } ∧
    v.extractLsb' 0 4 = fcode s.faultCode ∧ v.getLsbD 4 = s.cw.isSome ∧
    v.extractLsb' 5 2 = phaseBits s.mxp ∧ v.extractLsb' 7 9 = 0#9

/-- R233: RDCFG answers the six configuration words, in lockout too; out of range it raises INDEX, or is refused in
lockout. -/
def Obligations.RdcfgAnswersTheConfigurationWords : Prop :=
  (∀ sel : Half, decode (0x02#8 ++ 0#8 ++ sel) = .ok (.rdcfg sel)) ∧
  (∀ (sel : Half) (s : State), ∀ h : sel.toNat < 6,
    exec (.rdcfg sel) s = .next { s with
      response := some (okWordAt (fcode s.faultCode) (BitVec.ofNat 16
        ([s.cfg.n, s.cfg.dataCount, s.cfg.ecCount, s.cfg.dataCount + s.cfg.ecCount, s.cfg.timingCol,
          s.cfg.polyMax][sel.toNat]'h))) }) ∧
  (∀ (sel : Half) (s : State), 6 ≤ sel.toNat →
    (s.faultCode = none → exec (.rdcfg sel) s = .next (afterFault s .index)) ∧
    (∀ f, s.faultCode = some f →
      exec (.rdcfg sel) s = .next { s with response := some (faultWord (faultBits f)) }))

/-! ### The field -/

/-- `EXP[0] = 1` and each entry is `xtime` of the one before (10_state.md R21), so that the last leads back to the first and
the 255 entries are the nonzero bytes each once (which R21 marks as derived); `LOG[EXP[i]] = i`, every `LOG` value is in
0..254, and there is no `LOG[0]` (R22). -/
def Obligations.TablesArePowersOfTheGenerator : Prop :=
  expTable 0 = 1#8 ∧ (∀ i, i < 254 → expTable (i + 1) = xtime (expTable i)) ∧
  xtime (expTable 254) = 1#8 ∧
  (∀ b : Byte, b ≠ 0#8 → ∃ i, i < 255 ∧ expTable i = b ∧ ∀ j, j < 255 → expTable j = b → j = i) ∧
  (∀ i, i < 255 → expTable i ≠ 0#8 ∧ gfLog (expTable i) = some i) ∧
  (∀ a l, gfLog a = some l → l ≤ 254) ∧ gfLog 0#8 = none

/-- R102: GFLOG answers the discrete logarithm of a nonzero byte and raises DOMAIN for 0. -/
def Obligations.GflogAnswersTheLogarithmOrDomain : Prop :=
  (∀ a : Byte, decode (0x10#8 ++ 0#16 ++ a) = .ok (.gflog a)) ∧
  (∀ (a : Byte) (s : State), s.faultCode = none → a ≠ 0#8 →
    ∃ l : Nat, l ≤ 254 ∧ gfExp l = a ∧
      exec (.gflog a) s = .next { s with response := some (okWord (BitVec.ofNat 16 l)) }) ∧
  (∀ s : State, s.faultCode = none → exec (.gflog 0#8) s = .next (afterFault s .domain)) ∧
  gfLog 1#8 = some 0 ∧ gfLog 2#8 = some 1 ∧ gfLog 255#8 = some 175 ∧ gfLog 142#8 = some 254

/-- R103: GFEXP answers the generator raised to `n mod 255` for every signed `n`; the result is never 0. -/
def Obligations.GfexpAnswersThePowerOfTheGenerator : Prop :=
  (∀ n : Half, decode (0x11#8 ++ 0#8 ++ n) = .ok (.gfexp n)) ∧
  (∀ (n : Half) (s : State), s.faultCode = none →
    exec (.gfexp n) s = .next { s with
      response := some (okWord ((xtime^[(n.toInt % 255).toNat] 1#8).setWidth 16)) }) ∧
  (∀ n : Int, gfExp n = xtime^[(n % 255).toNat] 1#8 ∧ gfExp n ≠ 0#8)

/-- R104, R105: GFMUL answers `exp(LOG[a] + LOG[b])`, or 0 when an operand is 0; GFADD answers the exclusive-or; neither
ever faults. -/
def Obligations.GfmulAndGfaddAnswerProductAndSum : Prop :=
  (∀ a b : Byte, decode (0x12#8 ++ 0#8 ++ a ++ b) = .ok (.gfmul a b)) ∧
  (∀ a b : Byte, decode (0x13#8 ++ 0#8 ++ a ++ b) = .ok (.gfadd a b)) ∧
  (∀ (a b : Byte) (s : State), s.faultCode = none →
    ((a = 0#8 ∨ b = 0#8) → exec (.gfmul a b) s = .next { s with response := some (okWord 0#16) }) ∧
    (∀ la lb, gfLog a = some la → gfLog b = some lb →
      exec (.gfmul a b) s = .next { s with
        response := some (okWord ((gfExp ((la : Int) + (lb : Int))).setWidth 16)) }) ∧
    exec (.gfadd a b) s = .next { s with response := some (okWord ((a ^^^ b).setWidth 16)) }) ∧
  (∀ a b : Byte, a ≠ 0#8 → b ≠ 0#8 → ∃ la lb, gfLog a = some la ∧ gfLog b = some lb)

/-- The table product is multiplication modulo `0x11D`: `gmul` agrees on all operands with shift-and-add, which uses
no table (41_gf.md R106 (c), (d)). -/
def Obligations.GmulIsMultiplicationModulo0x11D : Prop :=
  ∀ a b : Byte, gmul a b = bitMul a b

/-- The laws of the tables and of the field (41_gf.md R106). -/
def Obligations.FieldLawsOfTheTables : Prop :=
  (∀ a : Byte, a ≠ 0#8 → gfExp (logOf a) = a) ∧ (∀ n : Int, (logOf (gfExp n) : Int) = n % 255) ∧
  (∀ m n : Int, gfExp (m + n) = gmul (gfExp m) (gfExp n)) ∧ (∀ n : Int, gfExp (n + 255) = gfExp n) ∧
  (∀ v : Byte, gmul 2#8 v = xtime v) ∧
  (∀ a b : Byte, gmul a b = gmul b a) ∧ (∀ a b c : Byte, gmul (gmul a b) c = gmul a (gmul b c)) ∧
  (∀ a : Byte, gmul a 1#8 = a) ∧ (∀ a : Byte, gmul a 0#8 = 0#8) ∧
  (∀ a b c : Byte, gmul a (b ^^^ c) = gmul a b ^^^ gmul a c) ∧
  (∀ a : Byte, a ≠ 0#8 → gfExp (-(logOf a : Int)) = gfExp (255 - (logOf a : Int)) ∧
    gmul a (gfExp (-(logOf a : Int))) = 1#8) ∧
  (∀ a b : Byte, a ≠ 0#8 → b ≠ 0#8 → gmul (gfExp ((logOf a : Int) - (logOf b : Int))) b = a)

/-! ### Polynomials -/

/-- Writing a polynomial register changes that register and nothing else (10_state.md R25: no aliases, none
hard-wired). -/
def Obligations.WritingARegisterTouchesNoOther : Prop :=
  ∀ (s : State) (d : PReg) (v : List Byte),
    (s.setPreg d v).preg d = v ∧ (∀ e, e ≠ d → (s.setPreg d v).preg e = s.preg e) ∧
    { s.setPreg d v with p0 := s.p0, p1 := s.p1, p2 := s.p2, p3 := s.p3 } = s

/-- R125: PCLR makes a register the zero polynomial. -/
def Obligations.PclrEmptiesTheRegister : Prop :=
  (∀ pd : PReg, decode (0x20#8 ++ pregBits pd ++ 0#22) = .ok (.pclr pd)) ∧
  (∀ (pd : PReg) (s : State), s.faultCode = none →
    exec (.pclr pd) s = .next { s.setPreg pd [] with response := some (okWord 0#16) })

/-- R126: PPUSH drops a leading zero, appends any other coefficient, and raises POLYOVF on a full register. -/
def Obligations.PpushAppendsOneCoefficient : Prop :=
  (∀ (pd : PReg) (c : Byte), decode (0x21#8 ++ pregBits pd ++ 0#14 ++ c) = .ok (.ppush pd c)) ∧
  (∀ (pd : PReg) (c : Byte) (s : State), s.faultCode = none →
    (s.preg pd = [] → c = 0#8 → exec (.ppush pd c) s = .next { s with response := some (okWord 0#16) }) ∧
    (¬(s.preg pd = [] ∧ c = 0#8) → (s.preg pd).length < s.cfg.polyMax →
      exec (.ppush pd c) s = .next { s.setPreg pd (s.preg pd ++ [c]) with
        response := some (okWord (BitVec.ofNat 16 ((s.preg pd).length + 1))) }) ∧
    (¬(s.preg pd = [] ∧ c = 0#8) → s.cfg.polyMax ≤ (s.preg pd).length →
      exec (.ppush pd c) s = .next (afterFault s .polyovf)))

/-- `PCLR` and then `PPUSH`es (the pseudo-command PSET) leave the trimmed sequence of the pushed coefficients, when it
fits (42_poly.md R126, 30_encoding.md R91). -/
def Obligations.PsetLeavesTheTrimmedSequence : Prop :=
  ∀ (pd : PReg) (cs : List Byte) (s : State), s.faultCode = none → (trim cs).length ≤ s.cfg.polyMax →
    ((hostRun (hostPset pd cs) s).2.preg pd = trim cs ∧ (hostRun (hostPset pd cs) s).2.faultCode = none ∧
      (hostRun (hostPset pd cs) s).1.length = cs.length + 1)

/-- R127: PSHL appends `s` zero coefficients to a nonzero polynomial; the zero polynomial and a shift by 0 stay as they
are; POLYOVF when the result does not fit. -/
def Obligations.PshlAppendsZeros : Prop :=
  (∀ (pd : PReg) (sh : Half), decode (0x22#8 ++ pregBits pd ++ 0#6 ++ sh) = .ok (.pshl pd sh)) ∧
  (∀ (pd : PReg) (sh : Half) (s : State), s.faultCode = none →
    (s.preg pd = [] ∨ sh = 0#16 →
      exec (.pshl pd sh) s = .next { s with
        response := some (okWord (BitVec.ofNat 16 (s.preg pd).length)) }) ∧
    (s.preg pd ≠ [] → sh ≠ 0#16 → (s.preg pd).length + sh.toNat ≤ s.cfg.polyMax →
      exec (.pshl pd sh) s = .next { s.setPreg pd (s.preg pd ++ List.replicate sh.toNat 0#8) with
        response := some (okWord (BitVec.ofNat 16 ((s.preg pd).length + sh.toNat))) }) ∧
    (s.preg pd ≠ [] → sh ≠ 0#16 → s.cfg.polyMax < (s.preg pd).length + sh.toNat →
      exec (.pshl pd sh) s = .next (afterFault s .polyovf)))

/-- R129: PGET answers coefficient `i`, 0 being the leading one, and raises INDEX at the length and beyond. -/
def Obligations.PgetAnswersTheCoefficientOrIndex : Prop :=
  (∀ (pa : PReg) (idx : Half), decode (0x24#8 ++ 0#2 ++ pregBits pa ++ 0#4 ++ idx) = .ok (.pget pa idx)) ∧
  (∀ (pa : PReg) (idx : Half) (s : State), s.faultCode = none →
    (∀ c, (s.preg pa)[idx.toNat]? = some c →
      exec (.pget pa idx) s = .next { s with response := some (okWord (c.setWidth 16)) }) ∧
    ((s.preg pa)[idx.toNat]? = none → exec (.pget pa idx) s = .next (afterFault s .index)))

/-- R122: the product with the zero polynomial is zero; otherwise it has `len(a) + len(b) - 1` coefficients, each the
sum of the products `a[i] * b[j]` with `i + j` its index, and for trimmed operands it is trimmed. -/
def Obligations.ProductCoefficientsAreConvolutions : Prop :=
  ∀ a b : List Byte,
    ((a = [] ∨ b = []) → polyMul a b = []) ∧
    (a ≠ [] → b ≠ [] → (polyMul a b).length = a.length + b.length - 1 ∧
      (∀ k, k < a.length + b.length - 1 → (polyMul a b)[k]? = some (convolution a b k)) ∧
      (NormalForm a → NormalForm b → NormalForm (polyMul a b)))

/-- R130, R133: PMUL writes the product of the source registers as they were before the command, whichever register is
the destination, and raises POLYOVF when the product does not fit. -/
def Obligations.PmulWritesTheProduct : Prop :=
  (∀ pd pa pb : PReg,
    decode (0x25#8 ++ pregBits pd ++ pregBits pa ++ pregBits pb ++ 0#18) = .ok (.pmul pd pa pb)) ∧
  (∀ (pd pa pb : PReg) (s : State), s.faultCode = none →
    (s.preg pa = [] ∨ s.preg pb = [] ∨ (s.preg pa).length + (s.preg pb).length - 1 ≤ s.cfg.polyMax →
      exec (.pmul pd pa pb) s = .next { s.setPreg pd (polyMul (s.preg pa) (s.preg pb)) with
        response := some (okWord (BitVec.ofNat 16 (polyMul (s.preg pa) (s.preg pb)).length)) }) ∧
    (s.preg pa ≠ [] → s.preg pb ≠ [] →
      s.cfg.polyMax < (s.preg pa).length + (s.preg pb).length - 1 →
      exec (.pmul pd pa pb) s = .next (afterFault s .polyovf)))

/-- R131, R133: PMOD writes the remainder of `Pa` by `Pb`, both as they were before the command, and raises DIVZERO for
an empty divisor. -/
def Obligations.PmodWritesTheRemainder : Prop :=
  (∀ pd pa pb : PReg,
    decode (0x26#8 ++ pregBits pd ++ pregBits pa ++ pregBits pb ++ 0#18) = .ok (.pmod pd pa pb)) ∧
  (∀ (pd pa pb : PReg) (s : State), s.faultCode = none →
    (s.preg pb ≠ [] →
      exec (.pmod pd pa pb) s = .next { s.setPreg pd (polyMod (s.preg pa) (s.preg pb)) with
        response := some (okWord (BitVec.ofNat 16 (polyMod (s.preg pa) (s.preg pb)).length)) }) ∧
    (s.preg pb = [] → exec (.pmod pd pa pb) s = .next (afterFault s .divzero)))

/-- For trimmed `a` and trimmed nonempty `d`, `mod(a, d)` is trimmed, shorter than `d`, and the ONE polynomial `r` with these
properties for which `a = q*d + r` for some `q` (42_poly.md R123). -/
def Obligations.RemainderIsTheUniqueRemainder : Prop :=
  ∀ a d : List Byte, NormalForm a → NormalForm d → d ≠ [] →
    NormalForm (polyMod a d) ∧ (polyMod a d).length < d.length ∧
    (∃ q, NormalForm q ∧ polyAdd (polyMul q d) (polyMod a d) = a) ∧
    (∀ q r, NormalForm q → NormalForm r → r.length < d.length → polyAdd (polyMul q d) r = a →
      r = polyMod a d)

/-- Multiplication is commutative and associative with identity `[1]`; a multiple of `d` has remainder zero; the remainder
is linear over `xor'` (42_poly.md R134 (b), (c), (d)). -/
def Obligations.PolynomialLaws : Prop :=
  (∀ a b : List Byte, polyMul a b = polyMul b a) ∧
  (∀ a b c : List Byte, NormalForm a → NormalForm b → NormalForm c →
    polyMul (polyMul a b) c = polyMul a (polyMul b c)) ∧
  (∀ a : List Byte, polyMul a [1#8] = a) ∧
  (∀ q d : List Byte, NormalForm q → NormalForm d → d ≠ [] → polyMod (polyMul q d) d = []) ∧
  (∀ a b d : List Byte, NormalForm a → NormalForm b → NormalForm d → d ≠ [] →
    polyMod (polyAdd a b) d = polyAdd (polyMod a d) (polyMod b d))

/-- `gen(k)` has `k + 1` coefficients, leads with 1, and every `exp(i)` with `i < k` is a root of it (42_poly.md R124,
R134 (e)). -/
def Obligations.GeneratorPolynomialHasItsRoots : Prop :=
  ∀ k : Nat, (genPoly k).length = k + 1 ∧ (genPoly k).head? = some 1#8 ∧
    ∀ i, i < k → hornerEval (genPoly k) (gfExp i) = 0#8

/-- R132: PGEN loads `gen(k)`, the product of the `[1, exp(i)]` (R124), or raises POLYOVF when `k + 1 > POLY_MAX`. -/
def Obligations.PgenLoadsTheGeneratorPolynomial : Prop :=
  (∀ (pd : PReg) (k : Half), decode (0x27#8 ++ pregBits pd ++ 0#6 ++ k) = .ok (.pgen pd k)) ∧
  (∀ (pd : PReg) (k : Half) (s : State), s.faultCode = none →
    (k.toNat + 1 ≤ s.cfg.polyMax →
      exec (.pgen pd k) s = .next { s.setPreg pd (genPoly k.toNat) with
        response := some (okWord (BitVec.ofNat 16 (k.toNat + 1))) }) ∧
    (s.cfg.polyMax < k.toNat + 1 → exec (.pgen pd k) s = .next (afterFault s .polyovf))) ∧
  genPoly 0 = [1#8] ∧ (∀ k : Nat, genPoly (k + 1) = polyMul (genPoly k) [1#8, gfExp k])

/-! ### The bit buffer -/

/-- R152: BCLR empties the buffer and leaves `CW`, `CWV` and everything else as they were. -/
def Obligations.BclrEmptiesTheBuffer : Prop :=
  decode 0x30000000#32 = .ok .bclr ∧
  ∀ s : State, s.faultCode = none → exec .bclr s = .next { s with
    count := 0, buf := List.replicate s.cfg.dataCount 0#8, response := some (okWord 0#16) }

/-- R153: a BPUT whose `w` bits fit appends the low `w` bits of `v`, most significant of them first, and changes no
earlier bit; one whose bits do not all fit raises CAPACITY and writes none. -/
def Obligations.BputAppendsTheBitsOrNone : Prop :=
  (∀ (v : Half) (w : BitVec 5), w.toNat ≤ 16 → decode (0x31#8 ++ 0#3 ++ w ++ v) = .ok (.bput v w)) ∧
  (∀ (v : Half) (w : BitVec 5) (s : State), s.faultCode = none → w.toNat ≤ 16 →
    (s.BufInv → s.count + w.toNat ≤ 8 * s.cfg.dataCount →
      ∃ t, exec (.bput v w) s = .next t ∧
        t = { s with buf := t.buf, count := s.count + w.toNat,
                     response := some (okWord (BitVec.ofNat 16 (s.count + w.toNat))) } ∧
        t.buf.length = s.cfg.dataCount ∧
        (∀ j, j < s.count → storeBit t.buf j = storeBit s.buf j) ∧
        (∀ k, k < w.toNat → storeBit t.buf (s.count + k) = v.getLsbD (w.toNat - 1 - k)) ∧
        (∀ j, j < 8 * s.cfg.dataCount → s.count + w.toNat ≤ j → storeBit t.buf j = false)) ∧
    (8 * s.cfg.dataCount < s.count + w.toNat →
      exec (.bput v w) s = .next (afterFault s .capacity)))

/-- R154: BPUTB appends one bit, has the same effect as `BPUT b, 1`, and raises CAPACITY on a full buffer. -/
def Obligations.BputbAppendsOneBit : Prop :=
  (∀ b : Bool, decode (0x32#8 ++ 0#23 ++ BitVec.ofBool b) = .ok (.bputb b)) ∧
  (∀ (b : Bool) (s : State), exec (.bputb b) s = exec (.bput (if b then 1#16 else 0#16) 1#5) s) ∧
  (∀ (b : Bool) (s : State), s.faultCode = none →
    (s.BufInv → s.count + 1 ≤ 8 * s.cfg.dataCount →
      ∃ t, exec (.bputb b) s = .next t ∧
        t = { s with buf := t.buf, count := s.count + 1,
                     response := some (okWord (BitVec.ofNat 16 (s.count + 1))) } ∧
        storeBit t.buf s.count = b ∧
        (∀ j, j < s.count → storeBit t.buf j = storeBit s.buf j)) ∧
    (8 * s.cfg.dataCount < s.count + 1 → exec (.bputb b) s = .next (afterFault s .capacity)))

/-- R155, R157: BGET answers bit `i`, bit `7 - (i mod 8)` of byte `i div 8`, and raises INDEX at `COUNT` and beyond; BRDB
answers backing byte `j`, and raises INDEX for a byte that holds no written bit. -/
def Obligations.BgetAndBrdbAnswerOrRaiseIndex : Prop :=
  (∀ idx : Half, decode (0x33#8 ++ 0#8 ++ idx) = .ok (.bget idx)) ∧
  (∀ j : Half, decode (0x35#8 ++ 0#8 ++ j) = .ok (.brdb j)) ∧
  (∀ (idx : Half) (s : State), s.faultCode = none →
    (s.BufInv → idx.toNat < s.count →
      ∃ b, s.buf[idx.toNat / 8]? = some b ∧
        exec (.bget idx) s = .next { s with
          response := some (okWord (((b >>> (7 - idx.toNat % 8)) &&& 1#8).setWidth 16)) }) ∧
    (s.count ≤ idx.toNat → exec (.bget idx) s = .next (afterFault s .index)) ∧
    (s.BufInv → 8 * idx.toNat < s.count →
      ∃ b, s.buf[idx.toNat]? = some b ∧
        exec (.brdb idx) s = .next { s with response := some (okWord (b.setWidth 16)) }) ∧
    (s.count ≤ 8 * idx.toNat → exec (.brdb idx) s = .next (afterFault s .index)))

/-- A BPUT splits: `BPUT v, w` leaves the state that `BPUT v >> m, w - m` and then `BPUT v, m` leave, for every
`m <= w` when the bits fit (43_bitbuf.md R158). -/
def Obligations.BputSplits : Prop :=
  ∀ (v : Half) (w m : BitVec 5) (s : State), s.faultCode = none → w.toNat ≤ 16 → m.toNat ≤ w.toNat →
    s.count + w.toNat ≤ 8 * s.cfg.dataCount →
    ∃ t u, exec (.bput (v >>> m.toNat) (w - m)) s = .next t ∧ exec (.bput v m) t = .next u ∧
      exec (.bput v w) s = .next u

/-! ### Codewords -/

/-- R188: RSENC on a full buffer writes `CW`, the data bytes and then the remainder of `msg(d)` by `gen(EC_COUNT)` with
zeros on its left to exactly EC_COUNT entries, sets `CWV`, and writes nothing else; otherwise it raises SEQUENCE. -/
def Obligations.RsencWritesTheCodewordSequence : Prop :=
  decode 0x40000000#32 = .ok .rsenc ∧
  (∀ s : State, s.faultCode = none → s.count = 8 * s.cfg.dataCount → s.buf.length = s.cfg.dataCount →
    ∃ l, exec .rsenc s = .next { s with
        cw := some l, response := some (okWord (BitVec.ofNat 16 (s.cfg.dataCount + s.cfg.ecCount))) } ∧
      l.length = s.cfg.dataCount + s.cfg.ecCount ∧
      (∀ j, j < s.cfg.dataCount → l[j]? = s.buf[j]?) ∧
      (polyMod (msgPoly s.cfg.ecCount s.buf) (genPoly s.cfg.ecCount)).length ≤ s.cfg.ecCount ∧
      (∀ j, j < s.cfg.ecCount → l[s.cfg.dataCount + j]? =
        if j < s.cfg.ecCount - (polyMod (msgPoly s.cfg.ecCount s.buf) (genPoly s.cfg.ecCount)).length
        then some 0#8
        else (polyMod (msgPoly s.cfg.ecCount s.buf) (genPoly s.cfg.ecCount))[j - (s.cfg.ecCount -
          (polyMod (msgPoly s.cfg.ecCount s.buf) (genPoly s.cfg.ecCount)).length)]?)) ∧
  (∀ s : State, s.faultCode = none → s.count ≠ 8 * s.cfg.dataCount →
    exec .rsenc s = .next (afterFault s .sequence))

/-- The whole codeword sequence that RSENC writes is a codeword of the Reed-Solomon code: read as a polynomial it is zero
at each `exp(i)`, `i < EC_COUNT`, and a multiple of `GEN` (45_rs.md R190 (c)). -/
def Obligations.CodewordsVanishAtTheGeneratorRoots : Prop :=
  ∀ (s t : State) (l : List Byte), s.cfg.Valid → s.BufInv → s.faultCode = none → exec .rsenc s = .next t →
    t.faultCode = none → t.cw = some l →
    (∀ i, i < s.cfg.ecCount → hornerEval l (gfExp i) = 0#8) ∧
    polyMod (trim l) (genPoly s.cfg.ecCount) = []

/-- The map from data bytes to codewords is linear over exclusive-or (45_rs.md R190 (d)). -/
def Obligations.CodewordsAreLinearInTheData : Prop :=
  ∀ (k : Nat) (d e : List Byte), d.length = e.length →
    codewords k (List.zipWith gadd d e) = List.zipWith gadd (codewords k d) (codewords k e)

/-- R189: CWRD answers codeword `i`; before RSENC it raises SEQUENCE, beyond the sequence INDEX. -/
def Obligations.CwrdAnswersTheCodewordOrFaults : Prop :=
  (∀ idx : Half, decode (0x41#8 ++ 0#8 ++ idx) = .ok (.cwrd idx)) ∧
  (∀ (idx : Half) (s : State), s.faultCode = none →
    (s.cw = none → exec (.cwrd idx) s = .next (afterFault s .sequence)) ∧
    (∀ l, s.cw = some l → s.CwInv → s.cfg.totalCount ≤ idx.toNat →
      exec (.cwrd idx) s = .next (afterFault s .index)) ∧
    (∀ l, s.cw = some l → s.CwInv → idx.toNat < s.cfg.totalCount →
      ∃ b, l[idx.toNat]? = some b ∧
        exec (.cwrd idx) s = .next { s with response := some (okWord (b.setWidth 16)) }))

/-! ### The matrix -/

/-- R201: MXCLR makes every cell UNSET in every phase and leaves everything else as it was. -/
def Obligations.MxclrClearsTheMatrix : Prop :=
  decode 0x50000000#32 = .ok .mxclr ∧
  ∀ s : State, s.faultCode = none →
    ∃ t, exec .mxclr s = .next t ∧
      t = { s with mx := t.mx, mxp := .cleared, response := some (okWord 0#16) } ∧
      GridShape s.cfg.n t.mx ∧
      ∀ row col, row < s.cfg.n → col < s.cfg.n → cellAt t.mx row col = .unset

/-- R203: MXFIND on a freshly cleared matrix stamps the three finder patterns, rows 0..7 by columns 0..7, rows 0..7 by
columns N-8..N-1 and rows N-8..N-1 by columns 0..7 (R204 to R206), leaves every other cell UNSET, and raises SEQUENCE in
any other phase. -/
def Obligations.MxfindStampsThreeFinderPatterns : Prop :=
  decode 0x51000000#32 = .ok .mxfind ∧
  (∀ s : State, s.Inv → s.faultCode = none → s.mxp = .cleared →
    ∃ t, exec .mxfind s = .next t ∧
      t = { s with mx := t.mx, mxp := .stamped, response := some (okWord 0#16) } ∧
      GridShape s.cfg.n t.mx ∧
      ∀ row col : Nat, row < s.cfg.n → col < s.cfg.n →
        (row < 8 → col < 8 → cellAt t.mx row col = finderCell row col) ∧
        (row < 8 → s.cfg.n - 8 ≤ col →
          cellAt t.mx row col = finderCell row ((col : Int) - ((s.cfg.n : Int) - 7))) ∧
        (s.cfg.n - 8 ≤ row → col < 8 →
          cellAt t.mx row col = finderCell ((row : Int) - ((s.cfg.n : Int) - 7)) col) ∧
        (¬(row < 8 ∧ col < 8) → ¬(row < 8 ∧ s.cfg.n - 8 ≤ col) → ¬(s.cfg.n - 8 ≤ row ∧ col < 8) →
          cellAt t.mx row col = .unset)) ∧
  (∀ s : State, s.faultCode = none → s.mxp ≠ .cleared → exec .mxfind s = .next (afterFault s .sequence))

/-- The traversal goes through the column pairs from the rightmost leftward, around the timing column, in alternating up
and down sweeps, the first one up, the right cell of a row before the left; so it looks at every cell outside the timing
column exactly once and at no other (46_matrix.md R209 to R212; that the first sweep goes up is the spec's own decision,
D20 in R211). -/
def Obligations.TheTraversalIsAnAlternatingZigzag : Prop :=
  ∀ c : Config, c.Valid →
    (visitOrder c).length = c.n * (c.n - 1) ∧
    (∀ j k, j < (c.n - 1) / 2 → k < c.n →
      (visitOrder c)[2 * (j * c.n + k)]? = some (pairRow c j k, pairColumn c j) ∧
      (visitOrder c)[2 * (j * c.n + k) + 1]? = some (pairRow c j k, pairColumn c j - 1)) ∧
    (visitOrder c).Nodup ∧
    (∀ row col, (row, col) ∈ visitOrder c ↔ row < c.n ∧ col < c.n ∧ col ≠ c.timingCol)

/-- MXPLACE on a stamped matrix gives the `k`-th UNSET cell of the traversal bit `k` of the codewords, or LIGHT when the
bits have run out (46_matrix.md R213, R214), changes no other cell and no other state but MXP, which becomes PLACED, and
answers the number of cells written (R209). -/
def Obligations.MxplaceWritesTheKthFreeCell : Prop :=
  ∀ (s : State) (l : List Byte), s.Inv → s.faultCode = none → s.mxp = .stamped → s.cw = some l →
    ∃ t, exec .mxplace s = .next t ∧
      t = { s with mx := t.mx, mxp := .placed,
                   response := some (okWord (BitVec.ofNat 16 (freeCells s.cfg s.mx).length)) } ∧
      GridShape s.cfg.n t.mx ∧
      (∀ k row col, (freeCells s.cfg s.mx)[k]? = some (row, col) →
        cellAt t.mx row col = if k < 8 * s.cfg.totalCount ∧ storeBit l k = true then .dark else .light) ∧
      (∀ row col, (row, col) ∉ freeCells s.cfg s.mx → cellAt t.mx row col = cellAt s.mx row col)

/-- MXPLACE completes exactly when the matrix is stamped and there are codewords, and then answers AVAIL whatever the
codewords are; otherwise it raises SEQUENCE (46_matrix.md R209, 00_scope.md R10). -/
def Obligations.MxplaceAnswersAvail : Prop :=
  decode 0x52000000#32 = .ok .mxplace ∧
  (∀ (s : State) (l : List Byte), s.Inv → s.faultCode = none → s.mxp = .stamped → s.cw = some l →
    ∃ t, exec .mxplace s = .next t ∧ t.response = some (okWord (BitVec.ofNat 16 s.cfg.avail)) ∧
      t.mxp = .placed) ∧
  (∀ s : State, s.faultCode = none → (s.mxp ≠ .stamped ∨ s.cw = none) →
    exec .mxplace s = .next (afterFault s .sequence))

/-- The placed matrix is a function of `CW` and the parameters alone: two states that agree on them, whatever else they
hold, get the same matrix and the same answer (46_matrix.md R218 (e)). -/
def Obligations.ThePlacedMatrixDependsOnTheCodewordsAlone : Prop :=
  ∀ s₁ s₂ t₁ t₂ : State, s₁.Inv → s₂.Inv → s₁.cfg = s₂.cfg → s₁.cw = s₂.cw →
    s₁.faultCode = none → s₂.faultCode = none →
    exec .mxplace s₁ = .next t₁ → exec .mxplace s₂ = .next t₂ → t₁.faultCode = none → t₂.faultCode = none →
    t₁.mx = t₂.mx ∧ t₁.response = t₂.response

/-- R215, R216: MXRD answers a cell's code in every phase and raises INDEX outside the grid; MXDARK answers 1 for a DARK
cell and 0 for any other once placement is complete, before that it raises SEQUENCE, and outside the grid INDEX. -/
def Obligations.MxrdAndMxdarkAnswerTheCell : Prop :=
  (∀ row col : Byte, decode (0x53#8 ++ 0#8 ++ row ++ col) = .ok (.mxrd row col)) ∧
  (∀ row col : Byte, decode (0x54#8 ++ 0#8 ++ row ++ col) = .ok (.mxdark row col)) ∧
  (∀ (row col : Byte) (s : State), s.faultCode = none →
    (row.toNat < s.cfg.n → col.toNat < s.cfg.n →
      exec (.mxrd row col) s = .next { s with response := some (okWord
        (match cellAt s.mx row.toNat col.toNat with
          | .unset => 0#16
          | .light => 2#16
          | .dark => 3#16)) }) ∧
    (s.cfg.n ≤ row.toNat ∨ s.cfg.n ≤ col.toNat → exec (.mxrd row col) s = .next (afterFault s .index)) ∧
    (s.mxp = .placed → row.toNat < s.cfg.n → col.toNat < s.cfg.n →
      exec (.mxdark row col) s = .next { s with response := some (okWord
        (if cellAt s.mx row.toNat col.toNat = .dark then 1#16 else 0#16)) }) ∧
    (s.mxp ≠ .placed → exec (.mxdark row col) s = .next (afterFault s .sequence)) ∧
    (s.mxp = .placed → (s.cfg.n ≤ row.toNat ∨ s.cfg.n ≤ col.toNat) →
      exec (.mxdark row col) s = .next (afterFault s .index)))

/-- R128, R156, R217: PLEN answers a register's length, BCNT the number of bits written, MXSIZE the grid dimension, in
every phase; each fits the 16 bits of VAL in a valid instance. -/
def Obligations.PlenBcntAndMxsizeAnswerTheirCounts : Prop :=
  (∀ pa : PReg, decode (0x23#8 ++ 0#2 ++ pregBits pa ++ 0#20) = .ok (.plen pa)) ∧
  decode 0x34000000#32 = .ok .bcnt ∧ decode 0x55000000#32 = .ok .mxsize ∧
  (∀ s : State, s.faultCode = none →
    (∀ pa, exec (.plen pa) s = .next { s with
      response := some (okWord (BitVec.ofNat 16 (s.preg pa).length)) }) ∧
    exec .bcnt s = .next { s with response := some (okWord (BitVec.ofNat 16 s.count)) } ∧
    exec .mxsize s = .next { s with response := some (okWord (BitVec.ofNat 16 s.cfg.n)) }) ∧
  (∀ s : State, s.Inv → (∀ pa, (s.preg pa).length < 65536) ∧ s.count < 65536 ∧ s.cfg.n < 65536)

/-! ### The whole machine -/

/-- The invariant holds after reset of every valid instance, so of the model's reset state too, which is the instance TINY17
by the model's choice (log 1). -/
def Obligations.TheInvariantHoldsAtReset : Prop :=
  (∀ c : Config, c.Valid → (State.resetOf c).Inv) ∧ State.reset.Inv

/-- Every step keeps the invariant: registers in normal form and within capacity, unwritten buffer bits zero, the stores
at their sizes, and the matrix what its phase says. A step with no command
on the port keeps it because it changes nothing, which is the model's choice (log 2). -/
def Obligations.EveryStepKeepsTheInvariant : Prop :=
  ∀ s t : State, s.Inv → step s = .next t → t.Inv

/-- No command writes a store that the "written by" column of R60 does not give it. -/
def Obligations.StoresAreWrittenOnlyByTheirCommands : Prop :=
  ∀ (i : Instr) (s t : State), exec i s = .next t →
    (∀ d, t.preg d ≠ s.preg d → mayWritePreg d i = true) ∧
    ((t.buf ≠ s.buf ∨ t.count ≠ s.count) → mayWriteBuf i = true) ∧
    (t.cw ≠ s.cw → mayWriteCw i = true) ∧
    ((t.mx ≠ s.mx ∨ t.mxp ≠ s.mxp) → mayWriteMx i = true) ∧
    t.cfg = s.cfg ∧ t.port = s.port

/-- The reading commands have no side effect: one that succeeds changes nothing but the response, and repeating it gives
the same response (20_memory.md R68). -/
def Obligations.ReadsHaveNoSideEffect : Prop :=
  ∀ (i : Instr) (s t : State),
    (∀ d, mayWritePreg d i = false) → mayWriteBuf i = false → mayWriteCw i = false → mayWriteMx i = false →
    exec i s = .next t → t.faultCode = s.faultCode →
    t = { s with response := t.response } ∧ exec i t = .next t

/-- An encode call starts afresh: what a command list that begins with SRST answers, and the state it leaves, do not
depend on the state it starts from, but for the instance's parameters and the words still on the port
(10_state.md R40, 70_reset_and_hazards.md R280). -/
def Obligations.AnEncodeCallForgetsTheStateBeforeIt : Prop :=
  ∀ (is : List Instr) (s₁ s₂ : State), s₁.cfg = s₂.cfg →
    (hostRun (.srst :: is) s₁).1 = (hostRun (.srst :: is) s₂).1 ∧
    { (hostRun (.srst :: is) s₁).2 with port := s₂.port } =
      { (hostRun (.srst :: is) s₂).2 with port := s₂.port }

/-- A text is rejected iff its length does not fit in 8 bits or its bits do not fit the buffer, and the payload sequence
of any other text writes exactly `8 * DATA_COUNT` bits (44_payload_host.md R172, R177); a whole encode call of it, from
any state of a valid instance and in lockout too, is answered without an error and ends with codewords and a placed
matrix (R179). -/
def Obligations.AnAcceptedEncodeCallEndsPlaced : Prop :=
  ∀ (h : HostParams) (s : State) (text : List Nat), s.Inv →
    (hostEncode h s.cfg.dataCount text = none ↔
      255 < text.length ∨ 8 * s.cfg.dataCount < 12 + 8 * text.length) ∧
    (∀ is, hostPayload h s.cfg.dataCount text = some is → totalBits is = 8 * s.cfg.dataCount) ∧
    (∀ is, hostEncode h s.cfg.dataCount text = some is →
      (hostRun is s).1.length = is.length ∧ (∀ w ∈ (hostRun is s).1, responseErr w = false) ∧
      (hostRun is s).2.faultCode = none ∧ (hostRun is s).2.mxp = .placed ∧
      (hostRun is s).2.cw.isSome = true ∧ (hostRun is s).2.count = 8 * s.cfg.dataCount)
end

