-- ==== Sys2Proof/Laws/Encoding.lean ====
section
/-! SUPPORT. The formats of a command word, field by field (30_encoding.md R81): which bits are fixed, and that each
field reads back what was put there. -/

namespace Sys2Proof

/-! ### The fixed bits -/

theorem fmtZ_and (op : Op) : fmtZ op &&& 0xFFFFFFFF#32 = op.code ++ 0#24 := by
  apply BitVec.eq_of_getLsbD_eq
  intro k hk
  simp only [fmtZ, BitVec.getLsbD_and, BitVec.getLsbD_append]
  interval_cases k <;> simp

theorem fmtA_and (op : Op) (a : Byte) : fmtA op a &&& 0xFFFFFF00#32 = op.code ++ 0#24 := by
  apply BitVec.eq_of_getLsbD_eq
  intro k hk
  simp only [fmtA, BitVec.getLsbD_and, BitVec.getLsbD_append]
  interval_cases k <;> simp

theorem fmtAB_and (op : Op) (a b : Byte) : fmtAB op a b &&& 0xFFFF0000#32 = op.code ++ 0#24 := by
  apply BitVec.eq_of_getLsbD_eq
  intro k hk
  simp only [fmtAB, BitVec.getLsbD_and, BitVec.getLsbD_append]
  interval_cases k <;> simp

theorem fmtI_and (op : Op) (imm : Half) : fmtI op imm &&& 0xFFFF0000#32 = op.code ++ 0#24 := by
  apply BitVec.eq_of_getLsbD_eq
  intro k hk
  simp only [fmtI, BitVec.getLsbD_and, BitVec.getLsbD_append]
  interval_cases k <;> simp

theorem fmtP_pd_and (op : Op) (pd : BitVec 2) : fmtP op pd 0#2 0#2 0#16 &&& 0xFF3FFFFF#32 = op.code ++ 0#24 := by
  apply BitVec.eq_of_getLsbD_eq
  intro k hk
  simp only [fmtP, BitVec.getLsbD_and, BitVec.getLsbD_append]
  interval_cases k <;> simp

theorem fmtP_pdImm_and (op : Op) (pd : BitVec 2) (imm : Half) : fmtP op pd 0#2 0#2 imm &&& 0xFF3F0000#32 = op.code ++ 0#24 := by
  apply BitVec.eq_of_getLsbD_eq
  intro k hk
  simp only [fmtP, BitVec.getLsbD_and, BitVec.getLsbD_append]
  interval_cases k <;> simp

theorem fmtP_pa_and (op : Op) (pa : BitVec 2) : fmtP op 0#2 pa 0#2 0#16 &&& 0xFFCFFFFF#32 = op.code ++ 0#24 := by
  apply BitVec.eq_of_getLsbD_eq
  intro k hk
  simp only [fmtP, BitVec.getLsbD_and, BitVec.getLsbD_append]
  interval_cases k <;> simp

theorem fmtP_paImm_and (op : Op) (pa : BitVec 2) (imm : Half) : fmtP op 0#2 pa 0#2 imm &&& 0xFFCF0000#32 = op.code ++ 0#24 := by
  apply BitVec.eq_of_getLsbD_eq
  intro k hk
  simp only [fmtP, BitVec.getLsbD_and, BitVec.getLsbD_append]
  interval_cases k <;> simp

theorem fmtP_regs_and (op : Op) (pd pa pb : BitVec 2) : fmtP op pd pa pb 0#16 &&& 0xFF03FFFF#32 = op.code ++ 0#24 := by
  apply BitVec.eq_of_getLsbD_eq
  intro k hk
  simp only [fmtP, BitVec.getLsbD_and, BitVec.getLsbD_append]
  interval_cases k <;> simp

theorem fmtW_and (op : Op) (w : BitVec 5) (v : Half) : fmtW op w v &&& 0xFFE00000#32 = op.code ++ 0#24 := by
  apply BitVec.eq_of_getLsbD_eq
  intro k hk
  simp only [fmtW, BitVec.getLsbD_and, BitVec.getLsbD_append]
  interval_cases k <;> simp

theorem fmtP_pdByte_and (op : Op) (pd : BitVec 2) (c : Byte) :
    fmtP op pd 0#2 0#2 (0#8 ++ c) &&& 0xFF3FFF00#32 = op.code ++ 0#24 := by
  apply BitVec.eq_of_getLsbD_eq
  intro k hk
  simp only [fmtP, BitVec.getLsbD_and, BitVec.getLsbD_append]
  interval_cases k <;> simp

theorem fmtB_and (op : Op) (b : Bool) : fmtB op b &&& 0xFFFFFFFE#32 = op.code ++ 0#24 := by
  apply BitVec.eq_of_getLsbD_eq
  intro k hk
  simp only [fmtB, BitVec.getLsbD_and, BitVec.getLsbD_append]
  interval_cases k <;> simp

/-! ### The opcode field -/

theorem opcField_fmtZ (op : Op) : opcField (fmtZ op) = op.code := by
  apply BitVec.eq_of_getLsbD_eq
  intro k hk
  simp only [opcField, fmtZ, BitVec.getLsbD_extractLsb', BitVec.getLsbD_append]
  interval_cases k <;> simp

theorem opcField_fmtA (op : Op) (a : Byte) : opcField (fmtA op a) = op.code := by
  apply BitVec.eq_of_getLsbD_eq
  intro k hk
  simp only [opcField, fmtA, BitVec.getLsbD_extractLsb', BitVec.getLsbD_append]
  interval_cases k <;> simp

theorem opcField_fmtAB (op : Op) (a b : Byte) : opcField (fmtAB op a b) = op.code := by
  apply BitVec.eq_of_getLsbD_eq
  intro k hk
  simp only [opcField, fmtAB, BitVec.getLsbD_extractLsb', BitVec.getLsbD_append]
  interval_cases k <;> simp

theorem opcField_fmtI (op : Op) (imm : Half) : opcField (fmtI op imm) = op.code := by
  apply BitVec.eq_of_getLsbD_eq
  intro k hk
  simp only [opcField, fmtI, BitVec.getLsbD_extractLsb', BitVec.getLsbD_append]
  interval_cases k <;> simp

theorem opcField_fmtP (op : Op) (pd pa pb : BitVec 2) (imm : Half) : opcField (fmtP op pd pa pb imm) = op.code := by
  apply BitVec.eq_of_getLsbD_eq
  intro k hk
  simp only [opcField, fmtP, BitVec.getLsbD_extractLsb', BitVec.getLsbD_append]
  interval_cases k <;> simp

theorem opcField_fmtW (op : Op) (w : BitVec 5) (v : Half) : opcField (fmtW op w v) = op.code := by
  apply BitVec.eq_of_getLsbD_eq
  intro k hk
  simp only [opcField, fmtW, BitVec.getLsbD_extractLsb', BitVec.getLsbD_append]
  interval_cases k <;> simp

theorem opcField_fmtB (op : Op) (b : Bool) : opcField (fmtB op b) = op.code := by
  apply BitVec.eq_of_getLsbD_eq
  intro k hk
  simp only [opcField, fmtB, BitVec.getLsbD_extractLsb', BitVec.getLsbD_append]
  interval_cases k <;> simp

/-! ### The operand fields -/

theorem loByteField_fmtA (op : Op) (a : Byte) : loByteField (fmtA op a) = a := by
  apply BitVec.eq_of_getLsbD_eq
  intro k hk
  simp only [loByteField, fmtA, BitVec.getLsbD_extractLsb', BitVec.getLsbD_append]
  interval_cases k <;> simp

theorem loByteField_fmtAB (op : Op) (a b : Byte) : loByteField (fmtAB op a b) = b := by
  apply BitVec.eq_of_getLsbD_eq
  intro k hk
  simp only [loByteField, fmtAB, BitVec.getLsbD_extractLsb', BitVec.getLsbD_append]
  interval_cases k <;> simp

theorem hiByteField_fmtAB (op : Op) (a b : Byte) : hiByteField (fmtAB op a b) = a := by
  apply BitVec.eq_of_getLsbD_eq
  intro k hk
  simp only [hiByteField, fmtAB, BitVec.getLsbD_extractLsb', BitVec.getLsbD_append]
  interval_cases k <;> simp

theorem immField_fmtI (op : Op) (imm : Half) : immField (fmtI op imm) = imm := by
  apply BitVec.eq_of_getLsbD_eq
  intro k hk
  simp only [immField, fmtI, BitVec.getLsbD_extractLsb', BitVec.getLsbD_append]
  interval_cases k <;> simp

theorem immField_fmtP (op : Op) (pd pa pb : BitVec 2) (imm : Half) : immField (fmtP op pd pa pb imm) = imm := by
  apply BitVec.eq_of_getLsbD_eq
  intro k hk
  simp only [immField, fmtP, BitVec.getLsbD_extractLsb', BitVec.getLsbD_append]
  interval_cases k <;> simp

theorem pdField_fmtP (op : Op) (pd pa pb : BitVec 2) (imm : Half) : pdField (fmtP op pd pa pb imm) = pd := by
  apply BitVec.eq_of_getLsbD_eq
  intro k hk
  simp only [pdField, fmtP, BitVec.getLsbD_extractLsb', BitVec.getLsbD_append]
  interval_cases k <;> simp

theorem paField_fmtP (op : Op) (pd pa pb : BitVec 2) (imm : Half) : paField (fmtP op pd pa pb imm) = pa := by
  apply BitVec.eq_of_getLsbD_eq
  intro k hk
  simp only [paField, fmtP, BitVec.getLsbD_extractLsb', BitVec.getLsbD_append]
  interval_cases k <;> simp

theorem pbField_fmtP (op : Op) (pd pa pb : BitVec 2) (imm : Half) : pbField (fmtP op pd pa pb imm) = pb := by
  apply BitVec.eq_of_getLsbD_eq
  intro k hk
  simp only [pbField, fmtP, BitVec.getLsbD_extractLsb', BitVec.getLsbD_append]
  interval_cases k <;> simp

theorem immField_fmtW (op : Op) (w : BitVec 5) (v : Half) : immField (fmtW op w v) = v := by
  apply BitVec.eq_of_getLsbD_eq
  intro k hk
  simp only [immField, fmtW, BitVec.getLsbD_extractLsb', BitVec.getLsbD_append]
  interval_cases k <;> simp

theorem wField_fmtW (op : Op) (w : BitVec 5) (v : Half) : wField (fmtW op w v) = w := by
  apply BitVec.eq_of_getLsbD_eq
  intro k hk
  simp only [wField, fmtW, BitVec.getLsbD_extractLsb', BitVec.getLsbD_append]
  interval_cases k <;> simp

theorem loByteField_fmtP (op : Op) (pd pa pb : BitVec 2) (c : Byte) :
    loByteField (fmtP op pd pa pb (0#8 ++ c)) = c := by
  apply BitVec.eq_of_getLsbD_eq
  intro k hk
  have h : (0#8 ++ c : BitVec (8 + 8)).getLsbD k = c.getLsbD k := by rw [BitVec.getLsbD_append]; simp [hk]
  have h' : (fmtP op pd pa pb (0#8 ++ c)).getLsbD (0 + k) = (0#8 ++ c : BitVec (8 + 8)).getLsbD k := by
    unfold fmtP
    rw [BitVec.getLsbD_append, Nat.zero_add]
    simp only [show k < 16 by omega, if_true]
  rw [loByteField, BitVec.getLsbD_extractLsb', h', h]
  simp [hk]

theorem bitField_fmtB (op : Op) (b : Bool) : bitField (fmtB op b) = b := by
  simp only [bitField, fmtB, BitVec.getLsbD_append]
  cases b <;> rfl

/-! ### The rows and the registers -/

/-- No two rows share an opcode. -/
theorem opOfCode_code (op : Op) : opOfCode op.code = some op := by cases op <;> rfl

theorem code_of_opOfCode {c : BitVec 8} {op : Op} (h : opOfCode c = some op) : op.code = c := by
  have := List.find?_some h
  simpa using this

theorem mem_opTable (op : Op) : op ∈ opTable := by cases op <;> decide

/-- A row's "match" column is its opcode and zeros. -/
theorem patt_eq (op : Op) : op.patt = op.code ++ 0#24 := by cases op <;> rfl

/-- Every row fixes the whole opcode. -/
theorem mask_opcode (op : Op) : op.mask.extractLsb' 24 8 = 0xFF#8 := by cases op <;> rfl

@[simp] theorem pregOfBits_pregBits (p : PReg) : pregOfBits (pregBits p) = p := by cases p <;> rfl

@[simp] theorem pregBits_pregOfBits : ∀ b : BitVec 2, pregBits (pregOfBits b) = b := by decide

end Sys2Proof
end

