-- ==== Sys2Proof/Laws/Field.lean ====
section
/-! SUPPORT. Small facts about the tables and `xtime`, each checked on its finite domain, which the laws of the field
operations rest on. -/

namespace Sys2Proof.Machine

theorem expTable_ne_zero : ∀ i, i < 255 → expTable i ≠ 0#8 := by decide +kernel

theorem mod_255_lt (n : Int) : (n % 255).toNat < 255 := by omega

/-- The antilogarithm is never 0. -/
theorem gfExp_ne_zero (n : Int) : gfExp n ≠ 0#8 := expTable_ne_zero _ (mod_255_lt n)

theorem gfExp_add_255 (n : Int) : gfExp (n + 255) = gfExp n := by
  unfold gfExp
  rw [Int.add_emod_right]

theorem logOf_lt : ∀ a : Byte, logOf a < 255 := by decide +kernel

theorem expTable_logOf : ∀ a : Byte, a ≠ 0#8 → expTable (logOf a) = a := by decide +kernel

/-- The antilogarithm of the logarithm of a nonzero byte is that byte. -/
theorem gfExp_logOf {a : Byte} (h : a ≠ 0#8) : gfExp (logOf a) = a := by
  have hl := logOf_lt a
  unfold gfExp
  rw [show ((logOf a : Int) % 255).toNat = logOf a by omega]
  exact expTable_logOf a h

theorem gmul_zero_left (b : Byte) : gmul 0#8 b = 0#8 := by simp [gmul]

theorem gmul_zero_right (a : Byte) : gmul a 0#8 = 0#8 := by simp [gmul]

theorem gmul_of_ne_zero {a b : Byte} (ha : a ≠ 0#8) (hb : b ≠ 0#8) :
    gmul a b = gfExp ((logOf a : Int) + (logOf b : Int)) := by
  simp [gmul, ha, hb]

/-- A field has no zero divisors. -/
theorem gmul_ne_zero {a b : Byte} (ha : a ≠ 0#8) (hb : b ≠ 0#8) : gmul a b ≠ 0#8 := by
  rw [gmul_of_ne_zero ha hb]
  exact gfExp_ne_zero _

end Sys2Proof.Machine
end

