-- ==== Sys2Proof/Laws/State.lean ====
section
/-! SUPPORT. One lemma per field per update of the state, each true by computation, so that no later proof unfolds a
record update. -/

namespace Sys2Proof.Machine

/-! ### Answering -/

@[simp] theorem State.answer_cfg (s : State) (v : Half) : (s.answer v).cfg = s.cfg := rfl
@[simp] theorem State.answer_p0 (s : State) (v : Half) : (s.answer v).p0 = s.p0 := rfl
@[simp] theorem State.answer_p1 (s : State) (v : Half) : (s.answer v).p1 = s.p1 := rfl
@[simp] theorem State.answer_p2 (s : State) (v : Half) : (s.answer v).p2 = s.p2 := rfl
@[simp] theorem State.answer_p3 (s : State) (v : Half) : (s.answer v).p3 = s.p3 := rfl
@[simp] theorem State.answer_buf (s : State) (v : Half) : (s.answer v).buf = s.buf := rfl
@[simp] theorem State.answer_count (s : State) (v : Half) : (s.answer v).count = s.count := rfl
@[simp] theorem State.answer_cw (s : State) (v : Half) : (s.answer v).cw = s.cw := rfl
@[simp] theorem State.answer_mx (s : State) (v : Half) : (s.answer v).mx = s.mx := rfl
@[simp] theorem State.answer_faultCode (s : State) (v : Half) : (s.answer v).faultCode = s.faultCode := rfl
@[simp] theorem State.answer_mxp (s : State) (v : Half) : (s.answer v).mxp = s.mxp := rfl
@[simp] theorem State.answer_response (s : State) (v : Half) : (s.answer v).response = some (responseWord false (fcode s.faultCode) v) := rfl
@[simp] theorem State.answer_port (s : State) (v : Half) : (s.answer v).port = s.port := rfl

/-! ### Taking a fault -/

@[simp] theorem State.raise_cfg (s : State) (f : FaultCode) : (s.raise f).cfg = s.cfg := rfl
@[simp] theorem State.raise_p0 (s : State) (f : FaultCode) : (s.raise f).p0 = s.p0 := rfl
@[simp] theorem State.raise_p1 (s : State) (f : FaultCode) : (s.raise f).p1 = s.p1 := rfl
@[simp] theorem State.raise_p2 (s : State) (f : FaultCode) : (s.raise f).p2 = s.p2 := rfl
@[simp] theorem State.raise_p3 (s : State) (f : FaultCode) : (s.raise f).p3 = s.p3 := rfl
@[simp] theorem State.raise_buf (s : State) (f : FaultCode) : (s.raise f).buf = s.buf := rfl
@[simp] theorem State.raise_count (s : State) (f : FaultCode) : (s.raise f).count = s.count := rfl
@[simp] theorem State.raise_cw (s : State) (f : FaultCode) : (s.raise f).cw = s.cw := rfl
@[simp] theorem State.raise_mx (s : State) (f : FaultCode) : (s.raise f).mx = s.mx := rfl
@[simp] theorem State.raise_faultCode (s : State) (f : FaultCode) : (s.raise f).faultCode = some f := rfl
@[simp] theorem State.raise_mxp (s : State) (f : FaultCode) : (s.raise f).mxp = s.mxp := rfl
@[simp] theorem State.raise_response (s : State) (f : FaultCode) : (s.raise f).response = some (responseWord true (faultBits f) 0) := rfl
@[simp] theorem State.raise_port (s : State) (f : FaultCode) : (s.raise f).port = s.port := rfl

/-! ### Refusing in lockout -/

@[simp] theorem State.refuse_cfg (s : State) : (s.refuse).cfg = s.cfg := rfl
@[simp] theorem State.refuse_p0 (s : State) : (s.refuse).p0 = s.p0 := rfl
@[simp] theorem State.refuse_p1 (s : State) : (s.refuse).p1 = s.p1 := rfl
@[simp] theorem State.refuse_p2 (s : State) : (s.refuse).p2 = s.p2 := rfl
@[simp] theorem State.refuse_p3 (s : State) : (s.refuse).p3 = s.p3 := rfl
@[simp] theorem State.refuse_buf (s : State) : (s.refuse).buf = s.buf := rfl
@[simp] theorem State.refuse_count (s : State) : (s.refuse).count = s.count := rfl
@[simp] theorem State.refuse_cw (s : State) : (s.refuse).cw = s.cw := rfl
@[simp] theorem State.refuse_mx (s : State) : (s.refuse).mx = s.mx := rfl
@[simp] theorem State.refuse_faultCode (s : State) : (s.refuse).faultCode = s.faultCode := rfl
@[simp] theorem State.refuse_mxp (s : State) : (s.refuse).mxp = s.mxp := rfl
@[simp] theorem State.refuse_response (s : State) : (s.refuse).response = some (responseWord true (fcode s.faultCode) 0) := rfl
@[simp] theorem State.refuse_port (s : State) : (s.refuse).port = s.port := rfl

/-! ### SRST -/

@[simp] theorem State.softReset_cfg (s : State) : (s.softReset).cfg = s.cfg := rfl
@[simp] theorem State.softReset_p0 (s : State) : (s.softReset).p0 = [] := rfl
@[simp] theorem State.softReset_p1 (s : State) : (s.softReset).p1 = [] := rfl
@[simp] theorem State.softReset_p2 (s : State) : (s.softReset).p2 = [] := rfl
@[simp] theorem State.softReset_p3 (s : State) : (s.softReset).p3 = [] := rfl
@[simp] theorem State.softReset_buf (s : State) : (s.softReset).buf = List.replicate s.cfg.dataCount 0 := rfl
@[simp] theorem State.softReset_count (s : State) : (s.softReset).count = 0 := rfl
@[simp] theorem State.softReset_cw (s : State) : (s.softReset).cw = none := rfl
@[simp] theorem State.softReset_mx (s : State) : (s.softReset).mx = List.replicate s.cfg.n (List.replicate s.cfg.n .unset) := rfl
@[simp] theorem State.softReset_faultCode (s : State) : (s.softReset).faultCode = none := rfl
@[simp] theorem State.softReset_mxp (s : State) : (s.softReset).mxp = .cleared := rfl
@[simp] theorem State.softReset_response (s : State) : (s.softReset).response = s.response := rfl
@[simp] theorem State.softReset_port (s : State) : (s.softReset).port = s.port := rfl

/-! ### Appending a bit -/

@[simp] theorem State.putBit_cfg (s : State) (b : Bool) : (s.putBit b).cfg = s.cfg := rfl
@[simp] theorem State.putBit_p0 (s : State) (b : Bool) : (s.putBit b).p0 = s.p0 := rfl
@[simp] theorem State.putBit_p1 (s : State) (b : Bool) : (s.putBit b).p1 = s.p1 := rfl
@[simp] theorem State.putBit_p2 (s : State) (b : Bool) : (s.putBit b).p2 = s.p2 := rfl
@[simp] theorem State.putBit_p3 (s : State) (b : Bool) : (s.putBit b).p3 = s.p3 := rfl
@[simp] theorem State.putBit_buf (s : State) (b : Bool) : (s.putBit b).buf = if b then s.buf.modify (s.count / 8) (fun x => x ||| ((1 : Byte) <<< (7 - s.count % 8))) else s.buf := rfl
@[simp] theorem State.putBit_count (s : State) (b : Bool) : (s.putBit b).count = s.count + 1 := rfl
@[simp] theorem State.putBit_cw (s : State) (b : Bool) : (s.putBit b).cw = s.cw := rfl
@[simp] theorem State.putBit_mx (s : State) (b : Bool) : (s.putBit b).mx = s.mx := rfl
@[simp] theorem State.putBit_faultCode (s : State) (b : Bool) : (s.putBit b).faultCode = s.faultCode := rfl
@[simp] theorem State.putBit_mxp (s : State) (b : Bool) : (s.putBit b).mxp = s.mxp := rfl
@[simp] theorem State.putBit_response (s : State) (b : Bool) : (s.putBit b).response = s.response := rfl
@[simp] theorem State.putBit_port (s : State) (b : Bool) : (s.putBit b).port = s.port := rfl

/-! ### Sending a command -/

@[simp] theorem State.send_cfg (s : State) (w : Word) : (s.send w).cfg = s.cfg := rfl
@[simp] theorem State.send_p0 (s : State) (w : Word) : (s.send w).p0 = s.p0 := rfl
@[simp] theorem State.send_p1 (s : State) (w : Word) : (s.send w).p1 = s.p1 := rfl
@[simp] theorem State.send_p2 (s : State) (w : Word) : (s.send w).p2 = s.p2 := rfl
@[simp] theorem State.send_p3 (s : State) (w : Word) : (s.send w).p3 = s.p3 := rfl
@[simp] theorem State.send_buf (s : State) (w : Word) : (s.send w).buf = s.buf := rfl
@[simp] theorem State.send_count (s : State) (w : Word) : (s.send w).count = s.count := rfl
@[simp] theorem State.send_cw (s : State) (w : Word) : (s.send w).cw = s.cw := rfl
@[simp] theorem State.send_mx (s : State) (w : Word) : (s.send w).mx = s.mx := rfl
@[simp] theorem State.send_faultCode (s : State) (w : Word) : (s.send w).faultCode = s.faultCode := rfl
@[simp] theorem State.send_mxp (s : State) (w : Word) : (s.send w).mxp = s.mxp := rfl
@[simp] theorem State.send_response (s : State) (w : Word) : (s.send w).response = s.response := rfl
@[simp] theorem State.send_port (s : State) (w : Word) : (s.send w).port = w :: s.port := rfl

/-! ### Polynomial registers -/

@[simp] theorem State.setPreg_cfg (s : State) (d : PReg) (v : List Byte) : (s.setPreg d v).cfg = s.cfg := by
  cases d <;> rfl
@[simp] theorem State.setPreg_buf (s : State) (d : PReg) (v : List Byte) : (s.setPreg d v).buf = s.buf := by
  cases d <;> rfl
@[simp] theorem State.setPreg_count (s : State) (d : PReg) (v : List Byte) : (s.setPreg d v).count = s.count := by
  cases d <;> rfl
@[simp] theorem State.setPreg_cw (s : State) (d : PReg) (v : List Byte) : (s.setPreg d v).cw = s.cw := by
  cases d <;> rfl
@[simp] theorem State.setPreg_mx (s : State) (d : PReg) (v : List Byte) : (s.setPreg d v).mx = s.mx := by
  cases d <;> rfl
@[simp] theorem State.setPreg_faultCode (s : State) (d : PReg) (v : List Byte) : (s.setPreg d v).faultCode = s.faultCode := by
  cases d <;> rfl
@[simp] theorem State.setPreg_mxp (s : State) (d : PReg) (v : List Byte) : (s.setPreg d v).mxp = s.mxp := by
  cases d <;> rfl
@[simp] theorem State.setPreg_response (s : State) (d : PReg) (v : List Byte) : (s.setPreg d v).response = s.response := by
  cases d <;> rfl
@[simp] theorem State.setPreg_port (s : State) (d : PReg) (v : List Byte) : (s.setPreg d v).port = s.port := by
  cases d <;> rfl

@[simp] theorem State.preg_setPreg_self (s : State) (d : PReg) (v : List Byte) : (s.setPreg d v).preg d = v := by
  cases d <;> rfl

theorem State.preg_setPreg_ne (s : State) {d e : PReg} (h : e ≠ d) (v : List Byte) :
    (s.setPreg d v).preg e = s.preg e := by
  cases d <;> cases e <;> first | rfl | exact absurd rfl h

theorem State.preg_setPreg (s : State) (d e : PReg) (v : List Byte) :
    (s.setPreg d v).preg e = if e = d then v else s.preg e := by
  split
  · next h => subst h; simp
  · next h => exact s.preg_setPreg_ne h v

@[simp] theorem State.answer_preg (s : State) (v : Half) (e : PReg) : (s.answer v).preg e = s.preg e := by
  cases e <;> rfl

@[simp] theorem State.raise_preg (s : State) (f : FaultCode) (e : PReg) : (s.raise f).preg e = s.preg e := by
  cases e <;> rfl

@[simp] theorem State.refuse_preg (s : State) (e : PReg) : (s.refuse).preg e = s.preg e := by
  cases e <;> rfl

@[simp] theorem State.putBit_preg (s : State) (b : Bool) (e : PReg) : (s.putBit b).preg e = s.preg e := by
  cases e <;> rfl

@[simp] theorem State.send_preg (s : State) (w : Word) (e : PReg) : (s.send w).preg e = s.preg e := by
  cases e <;> rfl

@[simp] theorem State.softReset_preg (s : State) (e : PReg) : s.softReset.preg e = [] := by
  cases e <;> rfl

end Sys2Proof.Machine
end

