-- ==== Sys2Proof/Laws/Ops.lean ====
section
/-! SUPPORT. What each shared operation can do, said once: lockout and checks, the command port and the step, the
response word, the buffer's bits, the matrix's cells. -/

namespace Sys2Proof.Machine

/-! ### Lockout and checks -/

/-- Out of lockout a command runs. -/
theorem unlessLocked_open {s t : State} (h : s.faultCode = none) : unlessLocked s t = .next t := by
  simp [unlessLocked, h]

/-- In lockout a command is refused. -/
theorem unlessLocked_locked {s t : State} {f : FaultCode} (h : s.faultCode = some f) :
    unlessLocked s t = .next s.refuse := by
  simp [unlessLocked, h]

/-- The guard always answers a next state: the refusal in lockout, the command's own state out of it. -/
theorem unlessLocked_cases {s t u : State} (h : unlessLocked s t = .next u) :
    (s.faultCode ≠ none ∧ u = s.refuse) ∨ (s.faultCode = none ∧ u = t) := by
  cases hf : s.faultCode with
  | none => rw [unlessLocked_open hf] at h; cases h; exact .inr ⟨rfl, rfl⟩
  | some f => rw [unlessLocked_locked hf] at h; cases h; exact .inl ⟨by simp, rfl⟩

theorem State.require_pos {s t : State} {c : Prop} [Decidable c] {f : FaultCode} (h : c) :
    s.require c f t = t := if_pos h

theorem State.require_neg {s t : State} {c : Prop} [Decidable c] {f : FaultCode} (h : ¬c) :
    s.require c f t = s.raise f := if_neg h

/-- A check passes or raises its fault. -/
theorem State.require_cases (s t : State) (c : Prop) [Decidable c] (f : FaultCode) :
    (c ∧ s.require c f t = t) ∨ (¬c ∧ s.require c f t = s.raise f) := by
  by_cases h : c
  · exact .inl ⟨h, State.require_pos h⟩
  · exact .inr ⟨h, State.require_neg h⟩

/-! ### The port and the step -/

theorem State.takeCommand_nil {s : State} (h : s.port = []) : s.takeCommand = none := by
  simp [State.takeCommand, h]

theorem State.takeCommand_cons {s : State} {w : Word} {rest : List Word} (h : s.port = w :: rest) :
    s.takeCommand = some (w, { s with port := rest }) := by
  simp [State.takeCommand, h]

/-- Everything a step can do: wait, run the decoded command, or answer an illegal word. -/
theorem step_cases (s : State) :
    (s.port = [] ∧ step s = .next s) ∨
    (∃ w rest i, s.port = w :: rest ∧ decode w = .ok i ∧ step s = exec i { s with port := rest }) ∨
    (∃ w rest e, s.port = w :: rest ∧ decode w = .error e ∧
      step s = execIllegal { s with port := rest }) := by
  cases hp : s.port with
  | nil => exact .inl ⟨rfl, by simp [step, State.takeCommand_nil hp, State.wait]⟩
  | cons w rest =>
    cases hd : decode w with
    | ok i => exact .inr (.inl ⟨w, rest, i, rfl, hd, by simp [step, State.takeCommand_cons hp, hd]⟩)
    | error e => exact .inr (.inr ⟨w, rest, e, rfl, hd, by simp [step, State.takeCommand_cons hp, hd]⟩)

/-! ### The response word -/

theorem responseWord_err (e : Bool) (f : BitVec 4) (v : Half) : (responseWord e f v).getLsbD 31 = e := by
  unfold responseWord
  rw [BitVec.getLsbD_append, BitVec.getLsbD_append, BitVec.getLsbD_append, BitVec.getLsbD_append]
  cases e <;> rfl

theorem responseWord_val (e : Bool) (f : BitVec 4) (v : Half) : (responseWord e f v).extractLsb' 0 16 = v := by
  ext i hi
  simp only [responseWord, BitVec.getElem_extractLsb', BitVec.getLsbD_append, Nat.zero_add, hi]
  exact BitVec.getLsbD_eq_getElem hi

theorem responseWord_fcode (e : Bool) (f : BitVec 4) (v : Half) : (responseWord e f v).extractLsb' 24 4 = f := by
  ext i hi
  simp only [responseWord, BitVec.getElem_extractLsb', BitVec.getLsbD_append]
  simp only [show ¬(24 + i < 16) by omega, show ¬(24 + i - 16 < 8) by omega, show 24 + i - 16 - 8 < 4 by omega,
    if_false, if_true]
  rw [show 24 + i - 16 - 8 = i by omega, BitVec.getLsbD_eq_getElem hi]

theorem responseWord_zeros (e : Bool) (f : BitVec 4) (v : Half) :
    (responseWord e f v).extractLsb' 28 3 = 0#3 ∧ (responseWord e f v).extractLsb' 16 8 = 0#8 := by
  constructor <;>
  · ext i hi
    simp only [responseWord, BitVec.getElem_extractLsb', BitVec.getLsbD_append]
    interval_cases i <;> simp

/-! ### The bit buffer -/

@[simp] theorem State.putBits_zero (v : Half) (s : State) : State.putBits v 0 s = s := rfl

@[simp] theorem State.putBits_succ (v : Half) (k : Nat) (s : State) :
    State.putBits v (k + 1) s = State.putBits v k (s.putBit (v.getLsbD k)) := rfl

/-- BPUT's loop moves `COUNT` by the width. -/
@[simp] theorem State.putBits_count (v : Half) (k : Nat) (s : State) :
    (State.putBits v k s).count = s.count + k := by
  induction k generalizing s with
  | zero => rfl
  | succ k ih => rw [State.putBits_succ, ih, State.putBit_count]; omega

/-- BPUT's loop writes `BUF` and `COUNT` and nothing else. -/
theorem State.putBits_frame (v : Half) (k : Nat) (s : State) :
    State.putBits v k s = { s with buf := (State.putBits v k s).buf, count := s.count + k } := by
  induction k generalizing s with
  | zero => rfl
  | succ k ih =>
    rw [State.putBits_succ, ih]
    simp only [State.putBit, Nat.add_assoc, Nat.add_comm 1 k]

@[simp] theorem State.putBit_buf_length (b : Bool) (s : State) : (s.putBit b).buf.length = s.buf.length := by
  simp only [State.putBit]
  split <;> simp

/-- BPUT's loop keeps the buffer's size. -/
@[simp] theorem State.putBits_buf_length (v : Half) (k : Nat) (s : State) :
    (State.putBits v k s).buf.length = s.buf.length := by
  induction k generalizing s with
  | zero => rfl
  | succ k ih => rw [State.putBits_succ, ih, State.putBit_buf_length]

/-- A bit within a byte after a bit at position `7 - (c mod 8)` has been set. -/
theorem getLsbD_or_bit (x : Byte) (c j : Nat) :
    (x ||| ((1 : Byte) <<< (7 - c % 8))).getLsbD (7 - j % 8) =
      (x.getLsbD (7 - j % 8) || decide (j % 8 = c % 8)) := by
  have hj : j % 8 < 8 := Nat.mod_lt _ (by decide)
  have hc : c % 8 < 8 := Nat.mod_lt _ (by decide)
  have key : ∀ a, a < 8 → ∀ b, b < 8 →
      ((1 : Byte) <<< (7 - a)).getLsbD (7 - b) = decide (b = a) := by decide
  rw [BitVec.getLsbD_or, key _ hc _ hj]

/-- Appending a bit sets the bit at `COUNT` and no other (R151). -/
theorem storeBit_putBit (s : State) (b : Bool) (h : s.count / 8 < s.buf.length) (j : Nat) :
    storeBit (s.putBit b).buf j =
      if j = s.count then (storeBit s.buf j || b) else storeBit s.buf j := by
  cases b with
  | false => simp [State.putBit]
  | true =>
    simp only [State.putBit, if_true, storeBit, Bool.or_true]
    by_cases hd : j / 8 = s.count / 8
    · have hx : (s.buf.modify (s.count / 8) (fun x => x ||| ((1 : Byte) <<< (7 - s.count % 8)))).getD (j / 8) 0 =
          (s.buf.getD (j / 8) 0) ||| ((1 : Byte) <<< (7 - s.count % 8)) := by
        rw [hd]; simp [List.getD_eq_getElem?_getD, List.getElem?_eq_getElem h]
      rw [hx, getLsbD_or_bit]
      by_cases hm : j = s.count
      · simp [hm]
      · have : ¬(j % 8 = s.count % 8) := by omega
        simp [hm, this]
    · have hm : j ≠ s.count := by rintro rfl; exact hd rfl
      have hx : (s.buf.modify (s.count / 8) (fun x => x ||| ((1 : Byte) <<< (7 - s.count % 8)))).getD (j / 8) 0 =
          s.buf.getD (j / 8) 0 := by
        simp [List.getD_eq_getElem?_getD, Ne.symm hd]
      rw [hx, if_neg hm]

/-! ### Cells -/

/-- Writing a cell of the grid and reading any cell. -/
theorem cellAt_setCell (mx : List (List Cell)) (r c r' c' : Nat) (v : Cell)
    (hr : r < mx.length) (hc : c < (mx.getD r []).length) :
    cellAt (setCell mx r c v) r' c' = if r' = r ∧ c' = c then v else cellAt mx r' c' := by
  unfold cellAt setCell
  by_cases h : r' = r
  · subst h
    have hrow : (mx.modify r' (fun row => row.set c v)).getD r' [] = (mx.getD r' []).set c v := by
      simp [List.getD_eq_getElem?_getD, List.getElem?_eq_getElem hr]
    rw [hrow]
    by_cases hcc : c' = c
    · subst hcc
      have hc' : c' < (mx[r']?.getD []).length := by rwa [List.getD_eq_getElem?_getD] at hc
      simp [List.getD_eq_getElem?_getD, hc']
    · simp [List.getD_eq_getElem?_getD, hcc, Ne.symm hcc]
  · simp [List.getD_eq_getElem?_getD, h, Ne.symm h]

end Sys2Proof.Machine
end

