-- ==== Sys2Proof/Laws/Matrix.lean ====
section
/-! SUPPORT. The matrix and the buffer keep their sizes and forms under every operation that writes them, and what a
cell reads as after each of those operations. -/

namespace Sys2Proof.Machine

/-! ### The grid's shape -/

theorem gridShape_clear (n : Nat) : GridShape n (List.replicate n (List.replicate n .unset)) :=
  ⟨by simp, fun row h => by rw [List.eq_of_mem_replicate h]; simp⟩

/-- A row of a grid, read by its number. -/
theorem gridShape_row {n : Nat} {mx : List (List Cell)} (h : GridShape n mx) {r : Nat} (hr : r < n) :
    (mx.getD r []).length = n := by
  have hlt : r < mx.length := by rw [h.1]; exact hr
  rw [List.getD_eq_getElem?_getD, List.getElem?_eq_getElem hlt]
  exact h.2 _ (List.getElem_mem hlt)

theorem gridShape_setCell {n : Nat} {mx : List (List Cell)} (h : GridShape n mx) (r c : Nat) (v : Cell) :
    GridShape n (setCell mx r c v) := by
  refine ⟨by rw [setCell, List.length_modify, h.1], fun row hrow => ?_⟩
  obtain ⟨i, hi, rfl⟩ := List.getElem_of_mem hrow
  have hi' : i < mx.length := by rwa [setCell, List.length_modify] at hi
  have hrow' := h.2 _ (List.getElem_mem hi')
  simp only [setCell, List.getElem_modify]
  split
  · rw [List.length_set]; exact hrow'
  · exact hrow'

theorem gridShape_stampGrid {n : Nat} {mx : List (List Cell)} (h : GridShape n mx) :
    GridShape n (stampGrid n mx) := by
  refine ⟨by simp [stampGrid, h.1], fun row hrow => ?_⟩
  obtain ⟨i, hi, rfl⟩ := List.getElem_of_mem hrow
  have hi' : i < mx.length := by simpa [stampGrid] using hi
  simpa [stampGrid] using h.2 _ (List.getElem_mem hi')

theorem gridShape_placeCell {n : Nat} {st : List (List Cell) × Nat} (h : GridShape n st.1) (cw : List Byte)
    (total : Nat) (rc : Nat × Nat) : GridShape n (placeCell cw total st rc).1 := by
  unfold placeCell
  split
  · exact gridShape_setCell h _ _ _
  · exact h

/-- The placer keeps the shape along any list of cells. -/
theorem gridShape_foldl_placeCell {n : Nat} (cw : List Byte) (total : Nat) (cells : List (Nat × Nat))
    (st : List (List Cell) × Nat) (h : GridShape n st.1) :
    GridShape n (cells.foldl (placeCell cw total) st).1 := by
  induction cells generalizing st with
  | nil => exact h
  | cons rc rest ih => exact ih _ (gridShape_placeCell h cw total rc)

theorem gridShape_placeAll {c : Config} {mx : List (List Cell)} (h : GridShape c.n mx) (cw : List Byte) :
    GridShape c.n (placeAll c cw mx).1 :=
  gridShape_foldl_placeCell cw _ _ _ h

/-! ### Cells -/

@[simp] theorem cellAt_clear (n r c : Nat) : cellAt (List.replicate n (List.replicate n .unset)) r c = .unset := by
  unfold cellAt
  by_cases hr : r < n
  · by_cases hc : c < n <;> simp [List.getD_eq_getElem?_getD, hr, hc]
  · simp [List.getD_eq_getElem?_getD, hr]

/-- A stamped grid holds the stamp where there is one and the old cell elsewhere (R203). -/
theorem cellAt_stampGrid {n : Nat} {mx : List (List Cell)} (h : GridShape n mx) {r c : Nat} (hr : r < n)
    (hc : c < n) : cellAt (stampGrid n mx) r c = (stampValue n r c).getD (cellAt mx r c) := by
  have hr' : r < mx.length := by rw [h.1]; exact hr
  have hc' : c < mx[r].length := by rw [h.2 _ (List.getElem_mem hr')]; exact hc
  simp [cellAt, stampGrid, List.getD_eq_getElem?_getD, hr', hc']

/-- One look of the placer at a cell of the grid, and any cell after it (R209, R213). -/
theorem cellAt_placeCell {n : Nat} {st : List (List Cell) × Nat} (h : GridShape n st.1) (cw : List Byte) (total : Nat)
    {rc : Nat × Nat} (hr : rc.1 < n) (hc : rc.2 < n) (r c : Nat) :
    cellAt (placeCell cw total st rc).1 r c =
      if cellAt st.1 rc.1 rc.2 = .unset ∧ r = rc.1 ∧ c = rc.2 then
        (if decide (st.2 < 8 * total) && storeBit cw st.2 then .dark else .light)
      else cellAt st.1 r c := by
  unfold placeCell
  split
  · next hu =>
    rw [cellAt_setCell _ _ _ _ _ _ (by rw [h.1]; exact hr) (by rw [gridShape_row h hr]; exact hc)]
    simp [hu]
  · next hu => simp [hu]

/-! ### The bit buffer's form -/

/-- `putBit` within capacity keeps R29: the size, `COUNT` in range, and zeros at `COUNT` and above. -/
theorem State.bufInv_putBit {s : State} (h : s.BufInv) (hc : s.count + 1 ≤ 8 * s.cfg.dataCount) (b : Bool) :
    (s.putBit b).BufInv := by
  obtain ⟨hl, _, hz⟩ := h
  refine ⟨by rw [State.putBit_buf_length]; exact hl, by simpa using hc, fun i hi hci => ?_⟩
  simp only [State.putBit_count, State.putBit_cfg] at hi hci
  rw [storeBit_putBit s b (by rw [hl]; omega), if_neg (by omega)]
  exact hz i hi (by omega)

@[simp] theorem State.putBits_cfg (v : Half) (k : Nat) (s : State) : (State.putBits v k s).cfg = s.cfg := by
  rw [State.putBits_frame]

/-- BPUT's loop within capacity keeps R29. -/
theorem State.bufInv_putBits (v : Half) (k : Nat) {s : State} (h : s.BufInv)
    (hc : s.count + k ≤ 8 * s.cfg.dataCount) : (State.putBits v k s).BufInv := by
  induction k generalizing s with
  | zero => exact h
  | succ k ih =>
    exact ih (State.bufInv_putBit h (by omega) _) (by simp only [State.putBit_count, State.putBit_cfg]; omega)

/-- An emptied buffer has the form of R29. -/
theorem storeBit_replicate (n i : Nat) : storeBit (List.replicate n 0#8) i = false := by
  unfold storeBit
  by_cases h : i / 8 < n <;> simp [List.getD_eq_getElem?_getD, h]

/-! ### Operations that write no store -/

theorem State.inv_answer {s : State} (v : Half) (h : s.Inv) : (s.answer v).Inv := h

theorem State.inv_raise {s : State} (f : FaultCode) (h : s.Inv) : (s.raise f).Inv := h

theorem State.inv_refuse {s : State} (h : s.Inv) : s.refuse.Inv := h

end Sys2Proof.Machine
end

