-- ==== Sys2Proof/Laws/PerInstr.lean ====
section
/-! SUPPORT. Per command: the word of a command matches its own row of the opcode table (30_encoding.md R86), one lemma
per constructor. -/

/-- The word of `i` selects its row: `W and mask = match`. -/
def Sys2Proof.Laws.Row.Statement (i : Sys2Proof.Instr) : Prop :=
  Sys2Proof.encode i &&& (Sys2Proof.opOf i).mask = (Sys2Proof.opOf i).patt

namespace Sys2Proof.Laws.Row

open Sys2Proof

theorem nop : Statement (.nop) :=
  (fmtZ_and .nop).trans (patt_eq .nop).symm

theorem rdst : Statement (.rdst) :=
  (fmtZ_and .rdst).trans (patt_eq .rdst).symm

theorem rdcfg (sel : Half) : Statement (.rdcfg sel) :=
  (fmtI_and .rdcfg sel).trans (patt_eq .rdcfg).symm

theorem srst : Statement (.srst) :=
  (fmtZ_and .srst).trans (patt_eq .srst).symm

theorem gflog (a : Byte) : Statement (.gflog a) :=
  (fmtA_and .gflog a).trans (patt_eq .gflog).symm

theorem gfexp (n : Half) : Statement (.gfexp n) :=
  (fmtI_and .gfexp n).trans (patt_eq .gfexp).symm

theorem gfmul (a b : Byte) : Statement (.gfmul a b) :=
  (fmtAB_and .gfmul a b).trans (patt_eq .gfmul).symm

theorem gfadd (a b : Byte) : Statement (.gfadd a b) :=
  (fmtAB_and .gfadd a b).trans (patt_eq .gfadd).symm

theorem pclr (pd : PReg) : Statement (.pclr pd) :=
  (fmtP_pd_and .pclr (pregBits pd)).trans (patt_eq .pclr).symm

theorem ppush (pd : PReg) (c : Byte) : Statement (.ppush pd c) :=
  (fmtP_pdByte_and .ppush (pregBits pd) c).trans (patt_eq .ppush).symm

theorem pshl (pd : PReg) (sh : Half) : Statement (.pshl pd sh) :=
  (fmtP_pdImm_and .pshl (pregBits pd) sh).trans (patt_eq .pshl).symm

theorem plen (pa : PReg) : Statement (.plen pa) :=
  (fmtP_pa_and .plen (pregBits pa)).trans (patt_eq .plen).symm

theorem pget (pa : PReg) (idx : Half) : Statement (.pget pa idx) :=
  (fmtP_paImm_and .pget (pregBits pa) idx).trans (patt_eq .pget).symm

theorem pmul (pd pa pb : PReg) : Statement (.pmul pd pa pb) :=
  (fmtP_regs_and .pmul (pregBits pd) (pregBits pa) (pregBits pb)).trans (patt_eq .pmul).symm

theorem pmod (pd pa pb : PReg) : Statement (.pmod pd pa pb) :=
  (fmtP_regs_and .pmod (pregBits pd) (pregBits pa) (pregBits pb)).trans (patt_eq .pmod).symm

theorem pgen (pd : PReg) (k : Half) : Statement (.pgen pd k) :=
  (fmtP_pdImm_and .pgen (pregBits pd) k).trans (patt_eq .pgen).symm

theorem bclr : Statement (.bclr) :=
  (fmtZ_and .bclr).trans (patt_eq .bclr).symm

theorem bput (v : Half) (w : BitVec 5) : Statement (.bput v w) :=
  (fmtW_and .bput w v).trans (patt_eq .bput).symm

theorem bputb (bit : Bool) : Statement (.bputb bit) :=
  (fmtB_and .bputb bit).trans (patt_eq .bputb).symm

theorem bget (idx : Half) : Statement (.bget idx) :=
  (fmtI_and .bget idx).trans (patt_eq .bget).symm

theorem bcnt : Statement (.bcnt) :=
  (fmtZ_and .bcnt).trans (patt_eq .bcnt).symm

theorem brdb (j : Half) : Statement (.brdb j) :=
  (fmtI_and .brdb j).trans (patt_eq .brdb).symm

theorem rsenc : Statement (.rsenc) :=
  (fmtZ_and .rsenc).trans (patt_eq .rsenc).symm

theorem cwrd (idx : Half) : Statement (.cwrd idx) :=
  (fmtI_and .cwrd idx).trans (patt_eq .cwrd).symm

theorem mxclr : Statement (.mxclr) :=
  (fmtZ_and .mxclr).trans (patt_eq .mxclr).symm

theorem mxfind : Statement (.mxfind) :=
  (fmtZ_and .mxfind).trans (patt_eq .mxfind).symm

theorem mxplace : Statement (.mxplace) :=
  (fmtZ_and .mxplace).trans (patt_eq .mxplace).symm

theorem mxrd (row col : Byte) : Statement (.mxrd row col) :=
  (fmtAB_and .mxrd row col).trans (patt_eq .mxrd).symm

theorem mxdark (row col : Byte) : Statement (.mxdark row col) :=
  (fmtAB_and .mxdark row col).trans (patt_eq .mxdark).symm

theorem mxsize : Statement (.mxsize) :=
  (fmtZ_and .mxsize).trans (patt_eq .mxsize).symm

end Sys2Proof.Laws.Row
end

