-- ==== Sys2Proof/Laws/Poly.lean ====
section
/-! SUPPORT. Lengths and normal forms of the polynomial functions. -/

namespace Sys2Proof.Machine

/-! ### Trimming -/

@[simp] theorem trim_nil : trim [] = [] := rfl

@[simp] theorem trim_zero_cons (cs : List Byte) : trim (0#8 :: cs) = trim cs := by simp [trim]

theorem trim_cons_of_ne {c : Byte} (h : c ≠ 0#8) (cs : List Byte) : trim (c :: cs) = c :: cs := by
  simp [trim, h]

theorem trim_length_le (l : List Byte) : (trim l).length ≤ l.length := by
  induction l with
  | nil => simp
  | cons c cs ih =>
    by_cases h : c = 0#8
    · subst h; rw [trim_zero_cons]; exact Nat.le_succ_of_le ih
    · rw [trim_cons_of_ne h]

theorem trim_normal (l : List Byte) : NormalForm (trim l) := by
  induction l with
  | nil => exact .inl rfl
  | cons c cs ih =>
    by_cases h : c = 0#8
    · subst h; rwa [trim_zero_cons]
    · rw [trim_cons_of_ne h]; exact .inr h

theorem trim_eq_self {l : List Byte} (h : NormalForm l) : trim l = l := by
  cases l with
  | nil => rfl
  | cons c cs =>
    rcases h with h | h
    · cases h
    · exact trim_cons_of_ne h cs

/-- The leading coefficient of a nonempty normal form is not 0 (R26). -/
theorem normalForm_lead {c : Byte} {cs : List Byte} (h : NormalForm (c :: cs)) : c ≠ 0#8 := by
  rcases h with h | h
  · cases h
  · exact h

/-- Appending keeps a nonempty normal form. -/
theorem normalForm_append {p : List Byte} (h : NormalForm p) (hp : p ≠ []) (q : List Byte) : NormalForm (p ++ q) := by
  cases p with
  | nil => exact absurd rfl hp
  | cons c cs => exact .inr (normalForm_lead h)

/-! ### Lengths -/

@[simp] theorem xorAt_length (i : Nat) (t r : List Byte) : (xorAt i t r).length = r.length := by
  induction t generalizing i r with
  | nil => rfl
  | cons c cs ih => rw [xorAt, ih, List.length_modify]

@[simp] theorem mulRows_length (i : Nat) (a b r : List Byte) : (mulRows i a b r).length = r.length := by
  induction a generalizing i r with
  | nil => rfl
  | cons x xs ih => rw [mulRows, ih, xorAt_length]

/-- The product of nonempty sequences has `len(a) + len(b) - 1` coefficients. -/
theorem polyMul_length {a b : List Byte} (ha : a ≠ []) (hb : b ≠ []) :
    (polyMul a b).length = a.length + b.length - 1 := by
  simp [polyMul, ha, hb]

theorem polyMul_eq_nil {a b : List Byte} (h : a = [] ∨ b = []) : polyMul a b = [] := if_pos h

@[simp] theorem scaleBy_length (ratio : Int) (d : List Byte) : (scaleBy ratio d).length = d.length := by
  simp [scaleBy]

theorem genPoly_length (k : Nat) : (genPoly k).length = k + 1 := by
  induction k with
  | zero => rfl
  | succ k ih =>
    have hne : genPoly k ≠ [] := by intro h; rw [h] at ih; simp at ih
    rw [genPoly, polyMul_length hne (by simp), ih]; simp

/-! ### The exclusive-or into a sequence, place by place -/

/-- Place `j` of `xorAt i t r`: `r[j]` with `t[j - i]` added where `t` reaches. -/
theorem getElem?_xorAt (i : Nat) (t r : List Byte) (j : Nat) :
    (xorAt i t r)[j]? = r[j]?.map (fun x => if i ≤ j then gadd x (t.getD (j - i) 0#8) else x) := by
  induction t generalizing i r with
  | nil => cases h : r[j]? <;> simp [xorAt, gadd, h]
  | cons c cs ih =>
    rw [xorAt, ih, List.getElem?_modify]
    cases h : r[j]? with
    | none => simp
    | some x =>
      rcases Nat.lt_trichotomy j i with hj | hj | hj
      · simp [show ¬ i ≤ j by omega, show ¬ i + 1 ≤ j by omega, show i ≠ j by omega]
      · subst hj; simp
      · obtain ⟨k, rfl⟩ : ∃ k, j = i + 1 + k := ⟨j - (i + 1), by omega⟩
        simp [show i ≤ i + 1 + k by omega, show i ≠ i + 1 + k by omega,
          show i + 1 + k - i = k + 1 by omega]

/-- At offset 0 the head takes the head. -/
theorem xorAt_zero_cons (c x : Byte) (cs xs : List Byte) :
    xorAt 0 (c :: cs) (x :: xs) = gadd x c :: xorAt 0 cs xs := by
  apply List.ext_getElem?
  intro j
  rw [getElem?_xorAt]
  cases j with
  | zero => simp
  | succ j => simp [getElem?_xorAt]

/-! ### Division -/

/-- The scaled divisor's leading term is the dividend's (R123). -/
theorem scaled_lead {a d : Byte} (ha : a ≠ 0#8) : gfExp ((logOf d : Int) + ((logOf a : Int) - (logOf d : Int))) = a := by
  rw [show (logOf d : Int) + ((logOf a : Int) - (logOf d : Int)) = logOf a by omega]
  exact gfExp_logOf ha

/-- Every pass of the division removes at least one element (R279). -/
theorem modPass_length_lt {a d : List Byte} (ha : NormalForm a) (hd : NormalForm d) (hne : d ≠ [])
    (hlen : d.length ≤ a.length) : (modPass a d).length < a.length := by
  cases d with
  | nil => exact absurd rfl hne
  | cons y ys =>
    cases a with
    | nil => simp at hlen
    | cons x xs =>
      have hy : y ≠ 0#8 := normalForm_lead hd
      have hx : x ≠ 0#8 := normalForm_lead ha
      have hh : modPass (x :: xs) (y :: ys) =
          trim (xorAt 0 (scaleBy ((logOf x : Int) - (logOf y : Int)) ys) xs) := by
        simp only [modPass, List.headD_cons, scaleBy, List.map_cons, BitVec.ofNat_eq_ofNat, if_neg hy, scaled_lead hx, xorAt_zero_cons]
        rw [show gadd x x = 0#8 by simp [gadd], trim_zero_cons]
      rw [hh]
      exact Nat.lt_succ_of_le (le_trans (trim_length_le _) (by rw [xorAt_length]))

/-- The division ends in a trimmed remainder shorter than the divisor, within `len(a)` passes. -/
theorem modLoop_spec {d : List Byte} (hd : NormalForm d) (hne : d ≠ []) (passes : Nat) (a : List Byte)
    (ha : NormalForm a) (hfuel : a.length ≤ passes) :
    NormalForm (modLoop passes a d) ∧ (modLoop passes a d).length < d.length := by
  have hdpos : 0 < d.length := List.length_pos_iff.mpr hne
  induction passes generalizing a with
  | zero => exact ⟨ha, by simp only [modLoop]; omega⟩
  | succ n ih =>
    unfold modLoop
    split
    · exact ⟨ha, by assumption⟩
    · next h =>
      have hlt := modPass_length_lt ha hd hne (by omega)
      exact ih _ (trim_normal _) (by omega)

theorem polyMod_normal {a d : List Byte} (ha : NormalForm a) (hd : NormalForm d) (hne : d ≠ []) :
    NormalForm (polyMod a d) := (modLoop_spec hd hne _ _ ha le_rfl).1

theorem polyMod_length_lt {a d : List Byte} (ha : NormalForm a) (hd : NormalForm d) (hne : d ≠ []) :
    (polyMod a d).length < d.length := (modLoop_spec hd hne _ _ ha le_rfl).2

end Sys2Proof.Machine
end

