-- ==== Sys2Proof/Tests/Slice0.lean ====
section
/-! SUPPORT. Tests: expected words, answers and state from spec/95_test_vectors.md (named V..), 30_encoding.md (R86) and
60_exceptions.md; the smoke test of the well-formedness check; and for each obligation with hypotheses a witness that
meets them. -/

namespace Sys2Proof.Tests

open Sys2Proof Sys2Proof.Machine

/-! ### Well-formedness -/

/-- The only check: a BPUT wider than 16 bits is refused (R82, R87); 16 and 0 are not. -/
theorem test_wellFormed_refuses_width_17 :
    (Instr.bput 0#16 17#5).wellFormed = false ∧ (Instr.bput 0#16 31#5).wellFormed = false ∧
    (Instr.bput 0xFFFF#16 16#5).wellFormed = true ∧ (Instr.bput 0#16 0#5).wellFormed = true := by decide

/-! ### Decoding: a word for every row of the opcode table, written from R81 and R86 -/

theorem test_decode_system :
    decode 0b00000000000000000000000000000000#32 = .ok .nop ∧
    decode 0x01000000#32 = .ok .rdst ∧
    decode 0b00000010000000000000000000000101#32 = .ok (.rdcfg 5#16) ∧
    decode 0x03000000#32 = .ok .srst := by decide

theorem test_decode_field :
    decode 0x1000008E#32 = .ok (.gflog 0x8E#8) ∧
    decode 0x11008000#32 = .ok (.gfexp 0x8000#16) ∧
    decode 0b00010010000000000101001111001010#32 = .ok (.gfmul 0x53#8 0xCA#8) ∧
    decode 0x1300FF00#32 = .ok (.gfadd 0xFF#8 0x00#8) := by decide

theorem test_decode_poly :
    decode 0x20400000#32 = .ok (.pclr .p1) ∧
    decode 0x21C000FF#32 = .ok (.ppush .p3 0xFF#8) ∧
    decode 0x2240003C#32 = .ok (.pshl .p1 60#16) ∧
    decode 0x23100000#32 = .ok (.plen .p1) ∧
    decode 0x2430003F#32 = .ok (.pget .p3 63#16) ∧
    decode 0b00100101110011000000000000000000#32 = .ok (.pmul .p3 .p0 .p3) ∧
    decode 0x26B40000#32 = .ok (.pmod .p2 .p3 .p1) ∧
    decode 0x27C00040#32 = .ok (.pgen .p3 64#16) := by decide

theorem test_decode_buffer :
    decode 0x30000000#32 = .ok .bclr ∧
    decode 0b00110001000010100000001011000101#32 = .ok (.bput 0x2C5#16 10#5) ∧
    decode 0x32000001#32 = .ok (.bputb true) ∧
    decode 0x33000037#32 = .ok (.bget 55#16) ∧
    decode 0x34000000#32 = .ok .bcnt ∧
    decode 0x35000006#32 = .ok (.brdb 6#16) := by decide

theorem test_decode_codeword :
    decode 0b01000000000000000000000000000000#32 = .ok .rsenc ∧
    decode 0x4100000C#32 = .ok (.cwrd 12#16) := by decide

theorem test_decode_matrix :
    decode 0x50000000#32 = .ok .mxclr ∧
    decode 0x51000000#32 = .ok .mxfind ∧
    decode 0x52000000#32 = .ok .mxplace ∧
    decode 0b01010011000000000000110000001010#32 = .ok (.mxrd 12#8 10#8) ∧
    decode 0x54000806#32 = .ok (.mxdark 8#8 6#8) ∧
    decode 0x55000000#32 = .ok .mxsize := by decide

/-- V41-5, V42-9, V43-8: the illegal words, each for its reason (R87). -/
theorem test_decode_illegal :
    decode 0x10000100#32 = .error (.mustBeZero .gflog) ∧
    decode 0x12010000#32 = .error (.mustBeZero .gfmul) ∧
    decode 0x11800000#32 = .error (.mustBeZero .gfexp) ∧
    decode 0x14000000#32 = .error (.unknownOpcode 0x14#8) ∧
    decode 0x20000001#32 = .error (.mustBeZero .pclr) ∧
    decode 0x20300000#32 = .error (.mustBeZero .pclr) ∧
    decode 0x2100011D#32 = .error (.mustBeZero .ppush) ∧
    decode 0x23C00000#32 = .error (.mustBeZero .plen) ∧
    decode 0x25010000#32 = .error (.mustBeZero .pmul) ∧
    decode 0x25000001#32 = .error (.mustBeZero .pmul) ∧
    decode 0x28000000#32 = .error (.unknownOpcode 0x28#8) ∧
    decode 0x31110000#32 = .error .widthOver16 ∧
    decode 0x311F0000#32 = .error .widthOver16 ∧
    decode 0x31200000#32 = .error (.mustBeZero .bput) ∧
    decode 0x32000002#32 = .error (.mustBeZero .bputb) ∧
    decode 0x30000001#32 = .error (.mustBeZero .bclr) ∧
    decode 0x36000000#32 = .error (.unknownOpcode 0x36#8) := by decide

/-- Every row's match word lies within its mask, has its opcode, and no two rows have the same opcode (R86, R88). -/
theorem test_table_rows_disjoint :
    opTable.length = 30 ∧ (opTable.map Op.code).Nodup ∧
    (∀ op ∈ opTable, op.patt &&& op.mask = op.patt ∧ opcField op.patt = op.code) := by decide

/-- The assembler's spelling (R90; V41-2, V43-2). -/
theorem test_asm :
    (Instr.gfexp 0x8000#16).asm = "GFEXP -32768" ∧ (Instr.bput 0xABCD#16 16#5).asm = "BPUT 43981, 16" ∧
    (Instr.pmod .p2 .p3 .p1).asm = "PMOD P2, P3, P1" := by decide

/-! ### Small states and what one command answers -/

/-- What a command answers. -/
def reply (i : Instr) (s : State) : Option Word :=
  match exec i s with
  | .next t => t.response
  | .fault _ => none
  | .refused _ => none

/-- One part of the state after a command. -/
def after (i : Instr) (s : State) : State :=
  match exec i s with
  | .next t => t
  | .fault _ => s
  | .refused _ => s

/-- What the next step answers. -/
def stepReply (s : State) : Option Word :=
  match step s with
  | .next t => t.response
  | .fault _ => none
  | .refused _ => none

/-- TINY17 with the polynomials of V42-3 and a full register. -/
def polys : State :=
  { State.reset with p0 := [1, 3, 2], p1 := [1, 4], p2 := [5, 0, 0, 0], p3 := 1 :: List.replicate 63 0 }

/-- TINY17 with twelve bits in the buffer (V43-1). -/
def twelve : State := { State.reset with buf := [0x41, 0xA0, 0, 0, 0, 0, 0], count := 12 }

/-- TINY17 with the data bytes of `"Hi"` in the buffer (V44-1). -/
def filled : State := { State.reset with buf := [0x40, 0x24, 0x86, 0x90, 0xEC, 0x11, 0xEC], count := 56 }

/-- ... and its codewords (V45-1). -/
def coded : State :=
  { filled with cw := some [0x40, 0x24, 0x86, 0x90, 0xEC, 0x11, 0xEC, 0xE8, 0x8E, 0x72, 0x1D, 0x6A] }

/-- ... and the finder stamps (V46-2). -/
def stamped : State := { coded with mx := stampGrid 17 State.reset.mx, mxp := .stamped }

/-- ... and placed (V46-1). -/
def placed : State := after .mxplace stamped

/-- A state in lockout, with code DIVZERO. -/
def locked : State := { polys with faultCode := some .divzero }

/-! ### System commands (V47, 47_system.md R231 to R234) -/

theorem test_nop : reply .nop polys = some 0x00000000#32 ∧ reply .nop locked = some 0x06000000#32 := by decide

/-- MXP = 1 and CWV = 1 give 0x0030; MXP = 1 alone gives 0x0020 (V46-2). -/
theorem test_rdst :
    reply .rdst stamped = some 0x00000030#32 ∧ reply .rdst { stamped with cw := none } = some 0x00000020#32 ∧
    reply .rdst locked = some 0x06000006#32 := by decide

theorem test_rdcfg :
    reply (.rdcfg 0) polys = some 0x00000011#32 ∧ reply (.rdcfg 3) polys = some 0x0000000C#32 ∧
    reply (.rdcfg 5) locked = some 0x06000040#32 ∧ reply (.rdcfg 6) polys = some 0x83000000#32 ∧
    reply (.rdcfg 6) locked = some 0x86000000#32 := by decide

theorem test_srst :
    reply .srst locked = some 0x00000000#32 ∧ (after .srst locked).faultCode = none ∧
    (after .srst locked).p0 = [] ∧ (after .srst placed).cw = none := by decide +kernel

/-! ### Field commands (V41) -/

theorem test_gflog :
    reply (.gflog 0x8E) polys = some 0x000000FE#32 ∧ reply (.gflog 0x03) polys = some 0x00000019#32 ∧
    reply (.gflog 0x00) polys = some 0x81000000#32 := by decide

theorem test_gfexp :
    reply (.gfexp 0x8000) polys = some 0x000000CC#32 ∧ reply (.gfexp 0xFF01) polys = some 0x00000001#32 ∧
    reply (.gfexp 0x01FC) polys = some 0x00000047#32 := by decide

theorem test_gfmul :
    reply (.gfmul 0x53 0xCA) polys = some 0x0000008F#32 ∧ reply (.gfmul 0x00 0x05) polys = some 0x00000000#32 ∧
    reply (.gfmul 0x02 0x80) polys = some 0x0000001D#32 := by decide

theorem test_gfadd :
    reply (.gfadd 0x53 0xCA) polys = some 0x00000099#32 ∧ reply (.gfadd 0xAA 0xAA) polys = some 0x00000000#32 := by
  decide

/-! ### Polynomial commands (V42) -/

theorem test_pclr : reply (.pclr .p1) polys = some 0x00000000#32 ∧ (after (.pclr .p1) polys).p1 = [] := by decide

/-- V42-1: a leading zero is dropped, an interior one kept; a full register raises POLYOVF. -/
theorem test_ppush :
    reply (.ppush .p0 0) State.reset = some 0x00000000#32 ∧ (after (.ppush .p0 0) polys).p0 = [1, 3, 2, 0] ∧
    reply (.ppush .p0 2) polys = some 0x00000004#32 ∧ reply (.ppush .p3 2) polys = some 0x87000000#32 := by decide

/-- V42-2. -/
theorem test_pshl :
    reply (.pshl .p1 5) State.reset = some 0x00000000#32 ∧ (after (.pshl .p1 3) polys).p1 = [1, 4, 0, 0, 0] ∧
    reply (.pshl .p2 60) polys = some 0x00000040#32 ∧ reply (.pshl .p3 1) polys = some 0x87000000#32 ∧
    reply (.pshl .p3 0) polys = some 0x00000040#32 := by decide

theorem test_plen : reply (.plen .p0) polys = some 0x00000003#32 ∧ reply (.plen .p1) State.reset = some 0#32 := by
  decide

theorem test_pget :
    reply (.pget .p0 1) polys = some 0x00000003#32 ∧ reply (.pget .p0 3) polys = some 0x83000000#32 := by decide

/-- V42-3, V42-4: the product, in place too, and the length check first. -/
theorem test_pmul :
    (after (.pmul .p2 .p0 .p1) polys).p2 = [1, 7, 14, 8] ∧ (after (.pmul .p1 .p1 .p0) polys).p1 = [1, 7, 14, 8] ∧
    (after (.pmul .p1 .p1 .p1) { polys with p1 := [1, 1] }).p1 = [1, 0, 1] ∧
    reply (.pmul .p2 .p3 .p1) polys = some 0x87000000#32 := by decide

/-- V42-5, V42-6. -/
theorem test_pmod :
    (after (.pmod .p2 .p2 .p0) polys).p2 = [27, 30] ∧
    (after (.pmod .p0 .p0 .p1) { polys with p0 := [3, 0, 0], p1 := [2, 0, 1] }).p0 = [143] ∧
    reply (.pmod .p2 .p0 .p0) polys = some 0x00000000#32 ∧
    reply (.pmod .p2 .p0 .p1) State.reset = some 0x86000000#32 := by decide

/-- V42-7. -/
theorem test_pgen :
    (after (.pgen .p0 5) polys).p0 = [1, 31, 198, 63, 147, 116] ∧ reply (.pgen .p0 0) polys = some 0x00000001#32 ∧
    reply (.pgen .p3 64) polys = some 0x87000000#32 := by decide

/-! ### Bit buffer commands (V43) -/

theorem test_bclr : (after .bclr coded).count = 0 ∧ (after .bclr coded).buf = List.replicate 7 0 ∧
    (after .bclr coded).cw = coded.cw := by decide

/-- V43-1, V43-2, V43-6: most significant bit first, across a byte boundary, the value cut to the width, all or
nothing. -/
theorem test_bput :
    (after (.bput 0x1A 8) { State.reset with buf := [0x40, 0, 0, 0, 0, 0, 0], count := 4 }).buf = twelve.buf ∧
    reply (.bput 0xFFFF 0) filled = some 0x00000038#32 ∧
    (after (.bput 0x1F4 8) { State.reset with buf := [0xAB, 0xCD, 0, 0, 0, 0, 0], count := 16 }).buf =
      [0xAB, 0xCD, 0xF4, 0, 0, 0, 0] ∧
    (after (.bput 0x1F 5) { State.reset with count := 52 }).buf = List.replicate 7 0 ∧
    reply (.bput 0x1F 5) { State.reset with count := 52 } = some 0x82000000#32 := by decide

theorem test_bputb :
    (after (.bputb true) { twelve with buf := [0xAB, 0xCD, 0xF4, 0xE0, 0, 0, 0], count := 28 }).buf =
      [0xAB, 0xCD, 0xF4, 0xE8, 0, 0, 0] ∧
    reply (.bputb false) filled = some 0x82000000#32 := by decide

theorem test_bget :
    reply (.bget 10) twelve = some 0x00000001#32 ∧ reply (.bget 11) twelve = some 0x00000000#32 ∧
    reply (.bget 12) twelve = some 0x83000000#32 := by decide

theorem test_bcnt : reply .bcnt twelve = some 0x0000000C#32 := by decide

theorem test_brdb :
    reply (.brdb 1) twelve = some 0x000000A0#32 ∧ reply (.brdb 2) twelve = some 0x83000000#32 := by decide

/-! ### Codeword commands (V45) -/

theorem test_rsenc :
    (after .rsenc filled).cw = coded.cw ∧ reply .rsenc filled = some 0x0000000C#32 ∧
    reply .rsenc twelve = some 0x84000000#32 := by decide +kernel

/-- V45-8, V45-10: the zero polynomial, and a remainder padded on the left. -/
theorem test_rsenc_padding :
    codewords 5 [0, 0, 0, 0, 0, 0, 0] = List.replicate 12 0 ∧
    codewords 5 [0, 0, 0, 0, 0, 1, 0x15] = [0, 0, 0, 0, 0, 1, 0x15, 0x00, 0xD0, 0x08, 0xA3, 0x6F] := by decide +kernel

theorem test_cwrd :
    reply (.cwrd 11) coded = some 0x0000006A#32 ∧ reply (.cwrd 12) coded = some 0x83000000#32 ∧
    reply (.cwrd 9999) filled = some 0x84000000#32 := by decide

/-! ### Matrix commands (V46) -/

theorem test_mxclr : (after .mxclr stamped).mx = State.reset.mx ∧ (after .mxclr stamped).mxp = .cleared := by
  decide +kernel

/-- V46-2: probes of the three stamps on TINY17. -/
theorem test_mxfind :
    [(0, 0), (1, 1), (2, 2), (4, 5), (7, 7), (0, 8), (0, 9), (0, 10), (7, 16), (8, 16), (9, 0), (10, 0), (16, 7),
      (12, 12)].map (fun rc => cellAt (after .mxfind coded).mx rc.1 rc.2) =
    [.dark, .light, .dark, .light, .light, .unset, .light, .dark, .light, .unset, .light, .dark, .light, .unset] ∧
    reply .mxfind stamped = some 0x84000000#32 := by decide +kernel

/-- V46-1: row 16 and row 8 of `"Hi"`, and the answer 96. -/
theorem test_mxplace :
    (List.range 17).map (fun c => decide (cellAt placed.mx 16 c = .dark)) =
      [true, true, true, true, true, true, true, false, false, false, true, true, true, false, true, true, false] ∧
    cellAt placed.mx 8 6 = .unset ∧ cellAt placed.mx 8 1 = .dark ∧ cellAt placed.mx 8 0 = .light ∧
    placed.response = some 0x00000060#32 ∧ reply .mxplace coded = some 0x84000000#32 := by decide +kernel

theorem test_mxrd :
    reply (.mxrd 0 10) stamped = some 0x00000003#32 ∧ reply (.mxrd 7 16) stamped = some 0x00000002#32 ∧
    reply (.mxrd 8 0) stamped = some 0x00000000#32 ∧ reply (.mxrd 17 0) stamped = some 0x83000000#32 := by
  decide +kernel

theorem test_mxdark :
    reply (.mxdark 0 0) placed = some 0x00000001#32 ∧ reply (.mxdark 8 6) placed = some 0x00000000#32 ∧
    reply (.mxdark 0 17) placed = some 0x83000000#32 ∧ reply (.mxdark 0 17) stamped = some 0x84000000#32 := by
  decide +kernel

theorem test_mxsize : reply .mxsize coded = some 0x00000011#32 := by decide

/-! ### The step, illegal words and lockout (V47, V60) -/

/-- A step runs the word at the head of the port; an illegal one raises ILLEGAL (V41-5); a command other than the four of
R250 is refused in lockout; an empty port leaves the state. -/
theorem test_step :
    stepReply (twelve.withFetchWord 32 0x3300000A) = some 0x00000001#32 ∧
    stepReply (twelve.withFetchWord 32 0x36000000) = some 0x85000000#32 ∧
    stepReply (locked.withFetchWord 32 0x20000000) = some 0x86000000#32 ∧
    stepReply (locked.withFetchWord 32 0x36000000) = some 0x86000000#32 ∧
    stepReply twelve = none := by decide

/-- A BPUT term that is no command's word raises ILLEGAL (log 15). -/
theorem test_bput_illformed : reply (.bput 0 17) twelve = some 0x85000000#32 := by decide

/-- V44-1, V44-5: the host's command list for `"Hi"`, and a text it rejects. -/
theorem test_hostPayload :
    hostPayload .reference 7 [0x48, 0x69] = some [.bclr, .bput 4 4, .bput 2 8, .bput 0x48 8, .bput 0x69 8, .bput 0 4,
      .bput 0xEC 8, .bput 0x11 8, .bput 0xEC 8] ∧
    hostPayload .reference 7 [0x48, 0x45, 0x4C, 0x4C, 0x4F, 0x21] = none := by decide

/-! ### Witnesses: for each obligation with hypotheses, concrete values that meet them -/

/-- The states of these tests are states of the invariant: one in each matrix phase, in and out of lockout. -/
theorem witness_invariant :
    polys.Inv ∧ twelve.Inv ∧ filled.Inv ∧ coded.Inv ∧ stamped.Inv ∧ placed.Inv ∧ locked.Inv :=
  ⟨by decide +kernel, by decide +kernel, by decide +kernel, by decide +kernel, by decide +kernel, by decide +kernel,
    by decide +kernel⟩

theorem witness_DecodeOfEncodeIsTheCommand :
    (Instr.bput 0xFFFF#16 16#5).wellFormed = true ∧ (Instr.bput 1#16 0#5).wellFormed = true ∧
    (Instr.pmod .p3 .p2 .p1).wellFormed = true := by decide

theorem witness_LegalWordsAreTheirCommandsWords :
    decode 0x3110FFFF#32 = .ok (.bput 0xFFFF 16) := by decide

theorem witness_IllegalWordsAreThoseThatMatchNoRow :
    (State.reset.send 0x31110000#32).port = 0x31110000#32 :: [] ∧ decode 0x31110000#32 = .error .widthOver16 ∧
    (State.reset.send 0x31110000#32).faultCode = none ∧
    (locked.send 0x31110000#32).faultCode = some .divzero ∧ (locked.send 0x31110000#32).port = [0x31110000#32] := by
  decide

theorem witness_StepRunsTheDecodedCommandOrWaits :
    (polys.send 0x03000000#32).port = 0x03000000#32 :: [] ∧ decode 0x03000000#32 = .ok .srst ∧ polys.port = [] := by
  decide

theorem witness_EveryCommandIsAnsweredByOneResponseWord :
    (polys.send 0x2100011D#32).port = 0x2100011D#32 :: [] ∧ (locked.send 0#32).port = [0#32] := by decide

theorem witness_AFaultWritesNothingButItsCode :
    ∃ t, (polys.send 0x10000000#32).faultCode = none ∧ (polys.send 0x10000000#32).port = [0x10000000#32] ∧
      step (polys.send 0x10000000#32) = .next t ∧ t.faultCode = some .domain :=
  ⟨_, rfl, rfl, rfl, rfl⟩

/-- Each of the six faults of legal commands is the first failing check somewhere, at the boundary of its condition, and
next to it no check fails; where two fail the earlier one decides. -/
theorem witness_TheFirstFailingCheckDecidesTheFault :
    polys.faultCode = none ∧
    faultByRules (.gflog 0) polys = some .domain ∧ faultByRules (.gflog 1) polys = none ∧
    faultByRules (.bput 0 1) filled = some .capacity ∧ faultByRules (.bput 0 0) filled = none ∧
    faultByRules (.bputb true) filled = some .capacity ∧ faultByRules (.bputb true) twelve = none ∧
    faultByRules (.pget .p0 3) polys = some .index ∧ faultByRules (.pget .p0 2) polys = none ∧
    faultByRules (.brdb 2) twelve = some .index ∧ faultByRules (.brdb 1) twelve = none ∧
    faultByRules (.rdcfg 6) polys = some .index ∧ faultByRules (.rdcfg 5) polys = none ∧
    faultByRules (.cwrd 12) twelve = some .sequence ∧ faultByRules (.cwrd 12) coded = some .index ∧
    faultByRules (.mxdark 17 0) stamped = some .sequence ∧ faultByRules (.mxrd 17 0) stamped = some .index ∧
    faultByRules (.pmod .p0 .p1 .p0) State.reset = some .divzero ∧
    faultByRules (.ppush .p3 1) polys = some .polyovf ∧ faultByRules (.pshl .p2 60) polys = none ∧
    faultByRules (.pshl .p2 61) polys = some .polyovf ∧ faultByRules (.pmul .p0 .p3 .p1) polys = some .polyovf ∧
    faultByRules (.pgen .p0 63) polys = none ∧ faultByRules (.pgen .p0 64) polys = some .polyovf := by decide

theorem witness_LockoutRefusesEveryOtherWord :
    (locked.send 0x02000005#32).faultCode = some .divzero ∧ (locked.send 0x02000005#32).port = [0x02000005#32] ∧
    decode 0x02000005#32 = .ok (.rdcfg 5) ∧ executesInLockout (.rdcfg 5) = true ∧
    (∀ i, decode 0x02000006#32 = .ok i → executesInLockout i = false) := by
  refine ⟨rfl, rfl, by decide, by decide, fun i h => ?_⟩
  rw [show decode 0x02000006#32 = .ok (.rdcfg 6) by decide] at h
  cases h; decide

theorem witness_TheFirstFaultCodeSticks :
    ∃ t u, (locked.send 0x10000000#32).faultCode = some .divzero ∧ step (locked.send 0x10000000#32) = .next t ∧
      t.faultCode = some .divzero ∧
      step (locked.send 0x03000000#32) = .next u ∧ u.faultCode = none :=
  ⟨_, _, rfl, rfl, rfl, rfl, rfl⟩

/-- Valid parameters, at the bound of `POLY_MAX` too. -/
theorem witness_ResetLeavesTheResetValues :
    Config.tiny17.Valid ∧ Config.ref25.Valid ∧ (⟨17, 7, 5, 6, 12⟩ : Config).Valid :=
  ⟨by decide, by decide, by decide⟩

/-- Parameters that break one constraint each (R8, R10): `POLY_MAX`, an even `N`, an odd timing column, capacity. -/
theorem witness_ResetLeavesTheResetValues_invalid :
    ¬(⟨17, 7, 5, 6, 11⟩ : Config).Valid ∧ ¬(⟨16, 7, 5, 6, 64⟩ : Config).Valid ∧
    ¬(⟨17, 7, 5, 5, 64⟩ : Config).Valid ∧ ¬(⟨17, 8, 5, 6, 64⟩ : Config).Valid :=
  ⟨by decide, by decide, by decide, by decide⟩

theorem witness_NopRdstSrst_inAndOutOfLockout :
    polys.faultCode = none ∧ locked.faultCode = some .divzero := by decide

theorem witness_RdcfgAnswersTheConfigurationWords :
    (5#16).toNat < 6 ∧ 6 ≤ (6#16).toNat ∧ polys.faultCode = none ∧ locked.faultCode = some .divzero := by decide

theorem witness_TablesArePowersOfTheGenerator :
    (142#8 : Byte) ≠ 0#8 ∧ 253 < 254 ∧ 254 < 255 ∧ expTable 254 = 142#8 ∧ gfLog 142#8 = some 254 := by decide

theorem witness_GflogAnswersTheLogarithmOrDomain : polys.faultCode = none ∧ (1#8 : Byte) ≠ 0#8 := by decide

theorem witness_GfexpAnswersThePowerOfTheGenerator : polys.faultCode = none := by decide

theorem witness_GfmulAndGfaddAnswerProductAndSum :
    polys.faultCode = none ∧ gfLog 0x8E#8 = some 254 ∧ gfLog 2#8 = some 1 ∧ (2#8 : Byte) ≠ 0#8 ∧ (0#8 : Byte) = 0#8 := by
  decide

theorem witness_FieldLawsOfTheTables : (1#8 : Byte) ≠ 0#8 ∧ (255#8 : Byte) ≠ 0#8 := by decide

theorem witness_WritingARegisterTouchesNoOther : PReg.p1 ≠ PReg.p0 := by decide

theorem witness_PclrEmptiesTheRegister : polys.faultCode = none ∧ polys.preg .p3 ≠ [] := by decide

/-- The three clauses exclude each other: a leading zero, room for one more, a full register. -/
theorem witness_PpushAppendsOneCoefficient :
    State.reset.preg .p0 = [] ∧ ¬(polys.preg .p0 = [] ∧ (0#8 : Byte) = 0#8) ∧
    (polys.preg .p0).length < polys.cfg.polyMax ∧ ({ polys with p3 := 1 :: List.replicate 62 0 }.preg .p3).length <
      polys.cfg.polyMax ∧ polys.cfg.polyMax ≤ (polys.preg .p3).length ∧ polys.faultCode = none := by decide

theorem witness_PsetLeavesTheTrimmedSequence :
    polys.faultCode = none ∧ (trim (0 :: 0 :: 1 :: List.replicate 63 0)).length ≤ polys.cfg.polyMax := by decide

/-- A result of exactly `POLY_MAX` coefficients, and one of one more. -/
theorem witness_PshlAppendsZeros :
    polys.faultCode = none ∧ polys.preg .p2 ≠ [] ∧ (60#16) ≠ 0#16 ∧
    (polys.preg .p2).length + (60#16).toNat ≤ polys.cfg.polyMax ∧
    polys.cfg.polyMax < (polys.preg .p2).length + (61#16).toNat ∧ State.reset.preg .p2 = [] := by decide

theorem witness_PgetAnswersTheCoefficientOrIndex :
    polys.faultCode = none ∧ (polys.preg .p0)[(2#16).toNat]? = some 2#8 ∧ (polys.preg .p0)[(3#16).toNat]? = none := by
  decide

theorem witness_ProductCoefficientsAreConvolutions :
    ([1, 3, 2] : List Byte) ≠ [] ∧ NormalForm [1, 3, 2] ∧ NormalForm [1, 4] ∧ 3 < [1, 3, 2].length + [1, 4].length - 1 := by
  decide

/-- `32 + 33 - 1 = 64` coefficients fit, `33 + 33 - 1` do not (V42-4). -/
theorem witness_PmulWritesTheProduct :
    ∀ s : State, s = { polys with p0 := 1 :: List.replicate 31 0, p1 := 1 :: List.replicate 32 0 } →
      s.faultCode = none ∧ (s.preg .p0).length + (s.preg .p1).length - 1 ≤ s.cfg.polyMax ∧
      s.preg .p1 ≠ [] ∧ s.cfg.polyMax < (s.preg .p1).length + (s.preg .p1).length - 1 ∧ State.reset.preg .p0 = [] := by
  rintro s rfl; decide

theorem witness_PmodWritesTheRemainder :
    polys.faultCode = none ∧ polys.preg .p1 ≠ [] ∧ State.reset.faultCode = none ∧ State.reset.preg .p1 = [] := by decide

/-- V42-5: `[2, 6, 4, 9] = [2, 0] * [1, 3, 2] + [9]`. -/
theorem witness_RemainderIsTheUniqueRemainder :
    NormalForm [2, 6, 4, 9] ∧ NormalForm [1, 3, 2] ∧ ([1, 3, 2] : List Byte) ≠ [] ∧ NormalForm [2, 0] ∧ NormalForm [9] ∧
    ([9] : List Byte).length < ([1, 3, 2] : List Byte).length ∧
    polyAdd (polyMul [2, 0] [1, 3, 2]) [9] = [2, 6, 4, 9] := by decide

theorem witness_PolynomialLaws :
    NormalForm [1, 3, 2] ∧ NormalForm [1, 4] ∧ NormalForm [] ∧ NormalForm [7, 0] ∧ ([7, 0] : List Byte) ≠ [] := by decide

theorem witness_GeneratorPolynomialHasItsRoots : 4 < 5 ∧ hornerEval (genPoly 5) (gfExp 4) = 0#8 := by decide

theorem witness_PgenLoadsTheGeneratorPolynomial :
    polys.faultCode = none ∧ (63#16).toNat + 1 ≤ polys.cfg.polyMax ∧ polys.cfg.polyMax < (64#16).toNat + 1 := by decide

theorem witness_BclrEmptiesTheBuffer : coded.faultCode = none ∧ coded.count ≠ 0 := by decide

/-- 52 bits written: four more fit, five do not (V43-6); and a width of 0 on a full buffer. -/
theorem witness_BputAppendsTheBitsOrNone :
    ∀ s : State, s = { State.reset with count := 52 } →
      s.faultCode = none ∧ s.BufInv ∧ s.count + (4#5).toNat ≤ 8 * s.cfg.dataCount ∧
      8 * s.cfg.dataCount < s.count + (5#5).toNat ∧ (16#5).toNat ≤ 16 ∧
      filled.BufInv ∧ filled.count + (0#5).toNat ≤ 8 * filled.cfg.dataCount := by
  rintro s rfl; decide

/-- The last free bit, and the first that does not fit. -/
theorem witness_BputbAppendsOneBit :
    ∀ s : State, s = { State.reset with count := 55 } →
      s.faultCode = none ∧ s.BufInv ∧ s.count + 1 ≤ 8 * s.cfg.dataCount ∧
      filled.faultCode = none ∧ 8 * filled.cfg.dataCount < filled.count + 1 := by
  rintro s rfl; decide

theorem witness_BgetAndBrdbAnswerOrRaiseIndex :
    twelve.faultCode = none ∧ twelve.BufInv ∧ (11#16).toNat < twelve.count ∧ twelve.count ≤ (12#16).toNat ∧
    8 * (1#16).toNat < twelve.count ∧ twelve.count ≤ 8 * (2#16).toNat := by decide

theorem witness_BputSplits :
    twelve.faultCode = none ∧ (16#5).toNat ≤ 16 ∧ (6#5).toNat ≤ (16#5).toNat ∧
    twelve.count + (16#5).toNat ≤ 8 * twelve.cfg.dataCount := by decide

theorem witness_RsencWritesTheCodewordSequence :
    filled.faultCode = none ∧ filled.count = 8 * filled.cfg.dataCount ∧ filled.buf.length = filled.cfg.dataCount ∧
    twelve.faultCode = none ∧ twelve.count ≠ 8 * twelve.cfg.dataCount := by decide

theorem witness_CodewordsVanishAtTheGeneratorRoots :
    ∃ t l, filled.cfg.Valid ∧ filled.BufInv ∧ filled.faultCode = none ∧ exec .rsenc filled = .next t ∧
      t.faultCode = none ∧ t.cw = some l ∧ 4 < filled.cfg.ecCount :=
  ⟨_, _, by decide, by decide, rfl, rfl, rfl, rfl, by decide⟩

/-- V45-15: two data sequences of equal length. -/
theorem witness_CodewordsAreLinearInTheData :
    ([0x40, 0x24, 0x86, 0x90, 0xEC, 0x11, 0xEC] : List Byte).length =
      ([0x40, 0x24, 0x86, 0xF0, 0xEC, 0x11, 0xEC] : List Byte).length := by decide

theorem witness_CwrdAnswersTheCodewordOrFaults :
    filled.faultCode = none ∧ filled.cw = none ∧ coded.faultCode = none ∧ coded.cw.isSome = true ∧ coded.CwInv ∧
    coded.cfg.totalCount ≤ (12#16).toNat ∧ (11#16).toNat < coded.cfg.totalCount := by decide

theorem witness_MxclrClearsTheMatrix : stamped.faultCode = none ∧ stamped.mxp ≠ .cleared := by decide

/-- The corners of the three footprints of the 17 x 17 grid, and a cell outside them. -/
theorem witness_MxfindStampsThreeFinderPatterns :
    coded.Inv ∧ coded.faultCode = none ∧ coded.mxp = .cleared ∧ 7 < 8 ∧ 17 - 8 ≤ 9 ∧ 9 < 17 ∧ ¬(8 < 8) ∧
    stamped.faultCode = none ∧ stamped.mxp ≠ .cleared :=
  ⟨by decide +kernel, by decide⟩

theorem witness_TheTraversalIsAnAlternatingZigzag :
    Config.tiny17.Valid ∧ 7 < (Config.tiny17.n - 1) / 2 ∧ 16 < Config.tiny17.n := ⟨by decide, by decide, by decide⟩

/-- V46-3: the last of the 96 free cells is (8, 0). -/
theorem witness_MxplaceWritesTheKthFreeCell :
    stamped.Inv ∧ stamped.faultCode = none ∧ stamped.mxp = .stamped ∧ stamped.cw.isSome = true ∧
    (freeCells stamped.cfg stamped.mx)[0]? = some (16, 16) ∧ (freeCells stamped.cfg stamped.mx)[95]? = some (8, 0) ∧
    (8, 6) ∉ freeCells stamped.cfg stamped.mx :=
  ⟨by decide +kernel, by decide +kernel⟩

theorem witness_MxplaceAnswersAvail :
    stamped.Inv ∧ stamped.faultCode = none ∧ stamped.mxp = .stamped ∧ stamped.cw.isSome = true ∧
    coded.faultCode = none ∧ coded.mxp ≠ .stamped ∧ { stamped with cw := none }.cw = none :=
  ⟨by decide +kernel, by decide⟩

theorem witness_ThePlacedMatrixDependsOnTheCodewordsAlone :
    ∃ t₁ t₂, stamped.Inv ∧ { stamped with p0 := [1] }.Inv ∧ stamped.cfg = { stamped with p0 := [1] }.cfg ∧
      stamped.cw = { stamped with p0 := [1] }.cw ∧ stamped.faultCode = none ∧
      exec .mxplace stamped = .next t₁ ∧ exec .mxplace { stamped with p0 := [1] } = .next t₂ ∧
      t₁.faultCode = none ∧ t₂.faultCode = none :=
  ⟨_, _, by decide +kernel, by decide +kernel, rfl, rfl, rfl, rfl, rfl, rfl, rfl⟩

theorem witness_MxrdAndMxdarkAnswerTheCell :
    placed.faultCode = none ∧ placed.mxp = .placed ∧ (16#8 : Byte).toNat < placed.cfg.n ∧
    placed.cfg.n ≤ (17#8 : Byte).toNat ∧ stamped.faultCode = none ∧ stamped.mxp ≠ .placed := by decide

theorem witness_PlenBcntAndMxsizeAnswerTheirCounts : polys.faultCode = none ∧ polys.Inv :=
  ⟨rfl, by decide +kernel⟩

theorem witness_TheInvariantHoldsAtReset : Config.ref25.Valid := by decide

/-- A step from a state of the invariant, with a command on the port. -/
theorem witness_EveryStepKeepsTheInvariant :
    ∃ t, (stamped.send 0x52000000#32).Inv ∧ step (stamped.send 0x52000000#32) = .next t ∧ t.mxp = .placed :=
  ⟨_, by decide +kernel, rfl, rfl⟩

theorem witness_StoresAreWrittenOnlyByTheirCommands :
    ∃ t, exec (.ppush .p0 7) polys = .next t ∧ t.preg .p0 ≠ polys.preg .p0 ∧ t.faultCode = none :=
  ⟨_, rfl, by decide, rfl⟩

theorem witness_ReadsHaveNoSideEffect :
    ∃ t, (∀ d, mayWritePreg d (.pget .p0 2) = false) ∧ mayWriteBuf (.pget .p0 2) = false ∧
      mayWriteCw (.pget .p0 2) = false ∧ mayWriteMx (.pget .p0 2) = false ∧ exec (.pget .p0 2) polys = .next t ∧
      t.faultCode = polys.faultCode :=
  ⟨_, fun _ => rfl, rfl, rfl, rfl, rfl, rfl⟩

theorem witness_AnEncodeCallForgetsTheStateBeforeIt : polys.cfg = placed.cfg ∧ polys.p0 ≠ placed.p0 := by
  decide +kernel

/-- V44-4: five characters fill TINY17 exactly, six are one too many; from lockout too. -/
theorem witness_AnAcceptedEncodeCallEndsPlaced :
    locked.Inv ∧ 12 + 8 * [0x48, 0x45, 0x4C, 0x4C, 0x4F].length ≤ 8 * locked.cfg.dataCount ∧
    (hostEncode .reference locked.cfg.dataCount [0x48, 0x45, 0x4C, 0x4C, 0x4F]).isSome = true ∧
    8 * locked.cfg.dataCount < 12 + 8 * [0x48, 0x45, 0x4C, 0x4C, 0x4F, 0x21].length :=
  ⟨by decide +kernel, by decide, by decide, by decide⟩

end Sys2Proof.Tests
end

section
/-! SUPPORT. The obligations of the tables, the registers, reset, the invariant and the encode call, with the lemmas
about the model's functions that they rest on. -/

namespace Sys2Proof.Machine

/-! ### The tables (10_state.md R21, R22) -/

theorem expTable_succ : ∀ i, i < 254 → expTable (i + 1) = xtime (expTable i) := by decide +kernel

/-- `LOG` inverts `EXP`. -/
theorem gfLog_expTable : ∀ i, i < 255 → gfLog (expTable i) = some i := by decide +kernel

theorem expTable_injective {i j : Nat} (hi : i < 255) (hj : j < 255) (h : expTable j = expTable i) : j = i := by
  have hlog := gfLog_expTable j hj
  rw [h, gfLog_expTable i hi] at hlog
  exact (Option.some.inj hlog).symm

theorem logOf_eq_of_gfLog {a : Byte} {l : Nat} (h : gfLog a = some l) : logOf a = l := by simp [logOf, h]

/-- Settles O17: `LOG` inverts `EXP` on both sides, so each nonzero byte stands in `EXP` exactly once. -/
theorem tablesArePowersOfTheGenerator : Obligations.TablesArePowersOfTheGenerator := by
  refine ⟨by decide, expTable_succ, by decide, fun b hb => ?_,
    fun i hi => ⟨expTable_ne_zero i hi, gfLog_expTable i hi⟩, fun a l h => ?_, by decide⟩
  · have hi := logOf_lt b
    have hb' := expTable_logOf b hb
    exact ⟨logOf b, hi, hb', fun j hj h => expTable_injective hi hj (h.trans hb'.symm)⟩
  · have hlt := logOf_lt a
    rw [logOf_eq_of_gfLog h] at hlt
    omega

/-! ### Writing a register (10_state.md R25) -/

/-- Settles O23: no two registers share a field of the state. -/
theorem writingARegisterTouchesNoOther : Obligations.WritingARegisterTouchesNoOther := by
  refine fun s d v => ⟨s.preg_setPreg_self d v, fun e he => s.preg_setPreg_ne he v, ?_⟩
  cases d <;> rfl

/-! ### Reset (10_state.md R39) -/

@[simp] theorem State.resetOf_preg (c : Config) (d : PReg) : (State.resetOf c).preg d = [] := by cases d <;> rfl

/-- `STATUS` reads 0 after reset. -/
theorem State.resetOf_statusWord (c : Config) : (State.resetOf c).statusWord = 0#16 := by
  simp [State.statusWord, State.cwv, State.resetOf, phaseBits, fcode]

theorem State.build_of_valid {c : Config} (h : c.Valid) : State.build c = some (State.resetOf c) := if_pos h

theorem State.build_of_not_valid {c : Config} (h : ¬c.Valid) : State.build c = none := if_neg h

theorem tiny17_valid : Config.tiny17.Valid := by decide

/-- Settles O12: a valid configuration is built into `State.resetOf`, and each value of R39 is read off it. -/
theorem resetLeavesTheResetValues : Obligations.ResetLeavesTheResetValues := by
  refine ⟨fun c hc => ⟨State.resetOf c, State.build_of_valid hc, rfl, State.resetOf_preg c, rfl, ?_, fun j hj => ?_, rfl,
    fun row col _ _ => cellAt_clear c.n row col, State.resetOf_statusWord c, rfl⟩,
    fun c hc => State.build_of_not_valid hc, State.build_of_valid tiny17_valid⟩
  · exact List.length_replicate
  · exact List.getElem?_replicate_of_lt hj

/-! ### Reset and the invariant -/

theorem polyOk_nil (c : Config) : PolyOk c [] := ⟨Nat.zero_le _, .inl rfl⟩

/-- An emptied buffer, as reset, SRST and BCLR leave it. -/
theorem State.bufInv_of_empty {s : State} (hb : s.buf = List.replicate s.cfg.dataCount 0) (hc : s.count = 0) :
    s.BufInv := by
  refine ⟨by rw [hb, List.length_replicate], by omega, fun i _ _ => ?_⟩
  rw [hb]
  exact storeBit_replicate _ i

/-- A cleared matrix, as reset, SRST and MXCLR leave it. -/
theorem State.mxInv_of_cleared {s : State} (hm : s.mx = List.replicate s.cfg.n (List.replicate s.cfg.n .unset))
    (hp : s.mxp = .cleared) : s.MxInv := by
  refine ⟨hm ▸ gridShape_clear _, fun row _ col _ => ?_⟩
  rw [hm, hp, cellAt_clear]
  simp [cellOk]

theorem State.inv_resetOf {c : Config} (hc : c.Valid) : (State.resetOf c).Inv :=
  have hp := polyOk_nil c
  ⟨hc, ⟨hp, hp, hp, hp⟩, State.bufInv_of_empty rfl rfl, fun _ h => (Option.not_mem_none _ h).elim,
    State.mxInv_of_cleared rfl rfl⟩

/-- Settles O53: the reset state of a valid configuration has empty registers, an empty buffer and a cleared matrix. -/
theorem theInvariantHoldsAtReset : Obligations.TheInvariantHoldsAtReset :=
  ⟨fun _ hc => State.inv_resetOf hc, State.inv_resetOf tiny17_valid⟩

/-! ### Which updates keep the invariant: one lemma per store -/

theorem State.Inv.valid {s : State} (h : s.Inv) : s.cfg.Valid := h.1

theorem State.Inv.bufInv {s : State} (h : s.Inv) : s.BufInv := h.2.2.1

theorem State.Inv.mxInv {s : State} (h : s.Inv) : s.MxInv := h.2.2.2.2

theorem State.Inv.polyOk_preg {s : State} (h : s.Inv) (d : PReg) : PolyOk s.cfg (s.preg d) := by
  obtain ⟨-, ⟨h0, h1, h2, h3⟩, -⟩ := h
  cases d
  exacts [h0, h1, h2, h3]

theorem State.Inv.setPreg {s : State} (h : s.Inv) (d : PReg) {v : List Byte} (hv : PolyOk s.cfg v) :
    (s.setPreg d v).Inv := by
  obtain ⟨hc, ⟨h0, h1, h2, h3⟩, hrest⟩ := h
  cases d
  exacts [⟨hc, ⟨hv, h1, h2, h3⟩, hrest⟩, ⟨hc, ⟨h0, hv, h2, h3⟩, hrest⟩, ⟨hc, ⟨h0, h1, hv, h3⟩, hrest⟩,
    ⟨hc, ⟨h0, h1, h2, hv⟩, hrest⟩]

theorem State.Inv.putPoly {s : State} (h : s.Inv) (d : PReg) {v : List Byte} (hv : PolyOk s.cfg v) :
    (s.putPoly d v).Inv := State.inv_answer _ (h.setPreg d hv)

theorem State.Inv.setBuf {s : State} (h : s.Inv) {b : List Byte} {k : Nat}
    (hb : ({ s with buf := b, count := k } : State).BufInv) : ({ s with buf := b, count := k } : State).Inv :=
  let ⟨hc, hp, _, hrest⟩ := h
  ⟨hc, hp, hb, hrest⟩

theorem State.Inv.setCw {s : State} (h : s.Inv) {l : List Byte} (hl : l.length = s.cfg.totalCount) :
    ({ s with cw := some l } : State).Inv := by
  obtain ⟨hc, hp, hb, -, hm⟩ := h
  exact ⟨hc, hp, hb, fun _ hx => Option.mem_some.mp hx ▸ hl, hm⟩

theorem State.Inv.setMx {s : State} (h : s.Inv) {m : List (List Cell)} {p : Phase}
    (hm : ({ s with mx := m, mxp := p } : State).MxInv) : ({ s with mx := m, mxp := p } : State).Inv := by
  obtain ⟨hc, hp, hb, hw, -⟩ := h
  exact ⟨hc, hp, hb, hw, hm⟩

theorem State.Inv.softReset {s : State} (h : s.Inv) : s.softReset.Inv := State.inv_resetOf h.valid

/-! ### Guards and checks keep the invariant -/

/-- A command keeps the invariant when the state it answers out of lockout does. -/
theorem State.Inv.after_unlessLocked {s t u : State} (h : s.Inv) (ht : t.Inv)
    (hu : unlessLocked s t = .next u) : u.Inv := by
  rcases unlessLocked_cases hu with ⟨-, rfl⟩ | ⟨-, rfl⟩
  · exact State.inv_refuse h
  · exact ht

theorem State.Inv.require {s t : State} (h : s.Inv) {c : Prop} [Decidable c] {f : FaultCode} (ht : c → t.Inv) :
    (s.require c f t).Inv := by
  rcases s.require_cases t c f with ⟨hc, he⟩ | ⟨-, he⟩
  · rw [he]; exact ht hc
  · rw [he]; exact State.inv_raise f h

/-! ### Products and generator polynomials are in normal form (42_poly.md R134) -/

theorem headD_xorAt_succ (i : Nat) (t r : List Byte) : (xorAt (i + 1) t r).headD 0 = r.headD 0 := by
  simp [List.headD_eq_head?_getD, List.head?_eq_getElem?, getElem?_xorAt]

/-- The rows after the first leave the leading place of a product alone. -/
theorem headD_mulRows_succ (i : Nat) (a b r : List Byte) : (mulRows (i + 1) a b r).headD 0 = r.headD 0 := by
  induction a generalizing i r with
  | nil => rfl
  | cons x xs ih => rw [mulRows, ih, headD_xorAt_succ]

/-- The leading coefficient of a product is the product of the leading coefficients. -/
theorem headD_polyMul_cons (x y : Byte) (xs ys : List Byte) :
    (polyMul (x :: xs) (y :: ys)).headD 0 = gmul x y := by
  have hlen : (x :: xs).length + (y :: ys).length - 1 = (xs.length + ys.length) + 1 := by
    simp only [List.length_cons]; omega
  rw [polyMul, if_neg (by simp), hlen, List.replicate_succ, mulRows, headD_mulRows_succ, List.map_cons, xorAt_zero_cons]
  simp [gadd]

theorem polyMul_normal {a b : List Byte} (ha : NormalForm a) (hb : NormalForm b) : NormalForm (polyMul a b) := by
  cases a with
  | nil => exact .inl rfl
  | cons x xs =>
    cases b with
    | nil => exact .inl (polyMul_eq_nil (.inr rfl))
    | cons y ys =>
      refine .inr ?_
      rw [headD_polyMul_cons]
      exact gmul_ne_zero (normalForm_lead ha) (normalForm_lead hb)

theorem genPoly_ne_nil (k : Nat) : genPoly k ≠ [] := by
  intro h
  have hlen := genPoly_length k
  simp [h] at hlen

theorem genPoly_normal (k : Nat) : NormalForm (genPoly k) := by
  induction k with
  | zero => exact .inr (by decide)
  | succ k ih => exact polyMul_normal ih (.inr (by simp))

/-! ### The codeword sequence has `TOTAL_COUNT` bytes (10_state.md R30, 45_rs.md R188) -/

theorem msgPoly_normal (k : Nat) (d : List Byte) : NormalForm (msgPoly k d) := by
  unfold msgPoly
  split
  · exact .inl rfl
  · next h => exact normalForm_append (trim_normal d) h _

theorem padLeft_length {k : Nat} {r : List Byte} (h : r.length ≤ k) : (padLeft k r).length = k := by
  simp [padLeft, h]

theorem codewords_length (k : Nat) (d : List Byte) : (codewords k d).length = d.length + k := by
  have hlt := polyMod_length_lt (msgPoly_normal k d) (genPoly_normal k) (genPoly_ne_nil k)
  rw [genPoly_length] at hlt
  rw [codewords, List.length_append, padLeft_length (by omega)]

/-! ### The columns and cells of the traversal (46_matrix.md R209 to R212) -/

/-- The columns that the column pairs cover: each right-hand column and the one left of it. -/
def pairColumns (cols : List Nat) : List Nat := cols.flatMap (fun c => [c, c - 1])

theorem pairColumns_cons (c : Nat) (cs : List Nat) : pairColumns (c :: cs) = c :: (c - 1) :: pairColumns cs := rfl

theorem mem_sweepRows {n r : Nat} (up : Bool) : r ∈ sweepRows n up ↔ r < n := by
  cases up <;> simp [sweepRows]

theorem mem_sweepCells {n r c x : Nat} (up : Bool) :
    (r, x) ∈ sweepCells n up c ↔ r < n ∧ (x = c ∨ x = c - 1) := by
  simp only [sweepCells, List.mem_flatMap, mem_sweepRows, List.mem_cons, Prod.mk.injEq, List.not_mem_nil, or_false]
  constructor
  · rintro ⟨y, hy, ⟨rfl, rfl⟩ | ⟨rfl, rfl⟩⟩
    exacts [⟨hy, .inl rfl⟩, ⟨hy, .inr rfl⟩]
  · rintro ⟨hr, rfl | rfl⟩
    exacts [⟨r, hr, .inl ⟨rfl, rfl⟩⟩, ⟨r, hr, .inr ⟨rfl, rfl⟩⟩]

theorem mem_sweeps {n r x : Nat} (up : Bool) (cols : List Nat) :
    (r, x) ∈ sweeps n up cols ↔ r < n ∧ x ∈ pairColumns cols := by
  induction cols generalizing up with
  | nil => simp [sweeps, pairColumns]
  | cons c cs ih =>
    rw [sweeps, List.mem_append, mem_sweepCells, ih, pairColumns_cons, List.mem_cons, List.mem_cons]
    tauto

/-- Left of the timing column the pairs have odd right-hand columns and cover every column. -/
theorem mem_pairColumns_left_of_timing {t : Nat} (k : Nat) {pairs x : Nat} (hk : k ≤ pairs) (ht : 2 * k ≤ t) :
    x ∈ pairColumns (rightColumns t pairs (2 * k - 1)) ↔ x < 2 * k := by
  induction k generalizing pairs with
  | zero => cases pairs <;> simp [rightColumns, pairColumns]
  | succ k ih =>
    obtain ⟨p, rfl⟩ : ∃ p, pairs = p + 1 := ⟨pairs - 1, by omega⟩
    rw [rightColumns, if_pos (by omega)]
    simp only [if_neg (show ¬ 2 * (k + 1) - 1 = t by omega)]
    rw [show 2 * (k + 1) - 1 - 2 = 2 * k - 1 by omega, pairColumns_cons, List.mem_cons, List.mem_cons,
      ih (by omega) (by omega)]
    omega

/-- From an even column at or right of the (even) timing column the pairs cover every column but that one. -/
theorem mem_pairColumns_right_of_timing {t : Nat} (k : Nat) {pairs x : Nat} (hk : k ≤ pairs) (heven : t % 2 = 0)
    (htwo : 2 ≤ t) (ht : t ≤ 2 * k) :
    x ∈ pairColumns (rightColumns t pairs (2 * k)) ↔ x ≤ 2 * k ∧ x ≠ t := by
  induction k generalizing pairs with
  | zero => omega
  | succ k ih =>
    obtain ⟨p, rfl⟩ : ∃ p, pairs = p + 1 := ⟨pairs - 1, by omega⟩
    rw [rightColumns, if_pos (by omega)]
    by_cases hcol : 2 * (k + 1) = t
    · simp only [if_pos hcol]
      rw [show 2 * (k + 1) - 1 - 2 = 2 * k - 1 by omega, pairColumns_cons, List.mem_cons, List.mem_cons,
        mem_pairColumns_left_of_timing k (by omega) (by omega)]
      omega
    · simp only [if_neg hcol]
      rw [show 2 * (k + 1) - 2 = 2 * k by omega, pairColumns_cons, List.mem_cons, List.mem_cons,
        ih (by omega) (by omega)]
      omega

/-- The placer looks at the cells of the grid outside the timing column and at no other (R212). -/
theorem mem_visitOrder {c : Config} (hc : c.Valid) {row col : Nat} :
    (row, col) ∈ visitOrder c ↔ row < c.n ∧ col < c.n ∧ col ≠ c.timingCol := by
  obtain ⟨hodd, hn, -, -, -, -, heven, htwo, ht, -⟩ := hc
  obtain ⟨k, hk⟩ : ∃ k, c.n = 2 * k + 1 := ⟨c.n / 2, by omega⟩
  rw [visitOrder, mem_sweeps, show c.n - 1 = 2 * k by omega,
    mem_pairColumns_right_of_timing k (by omega) heven htwo (by omega), hk,
    Nat.lt_succ_iff (m := col)]

/-! ### What the placer leaves in a cell (46_matrix.md R213, R214) -/

section Placer
variable {n : Nat} (cw : List Byte) (total : Nat) {st : List (List Cell) × Nat} {r c : Nat}

theorem cellAt_placeCell_of_decided (h : GridShape n st.1) {rc : Nat × Nat} (hr : rc.1 < n) (hc : rc.2 < n)
    (hd : cellAt st.1 r c ≠ .unset) : cellAt (placeCell cw total st rc).1 r c = cellAt st.1 r c := by
  rw [cellAt_placeCell h cw total hr hc, if_neg]
  rintro ⟨hu, rfl, rfl⟩
  exact hd hu

theorem cellAt_placeCell_of_ne (h : GridShape n st.1) {rc : Nat × Nat} (hr : rc.1 < n) (hc : rc.2 < n)
    (hne : (r, c) ≠ rc) : cellAt (placeCell cw total st rc).1 r c = cellAt st.1 r c := by
  rw [cellAt_placeCell h cw total hr hc, if_neg]
  rintro ⟨-, rfl, rfl⟩
  exact hne rfl

/-- A cell the placer has looked at is decided. -/
theorem cellAt_placeCell_self_ne_unset (h : GridShape n st.1) (hr : r < n) (hc : c < n) :
    cellAt (placeCell cw total st (r, c)).1 r c ≠ .unset := by
  rw [cellAt_placeCell h cw total hr hc]
  by_cases hu : cellAt st.1 r c = .unset
  · rw [if_pos ⟨hu, rfl, rfl⟩]
    split <;> decide
  · rw [if_neg fun hcond => hu hcond.1]
    exact hu

/-- The placer leaves a decided cell as it is, whatever cells it looks at. -/
theorem cellAt_foldl_placeCell_of_decided (cells : List (Nat × Nat)) (hin : ∀ rc ∈ cells, rc.1 < n ∧ rc.2 < n)
    (h : GridShape n st.1) (hd : cellAt st.1 r c ≠ .unset) :
    cellAt (cells.foldl (placeCell cw total) st).1 r c = cellAt st.1 r c := by
  induction cells generalizing st with
  | nil => rfl
  | cons rc rest ih =>
    obtain ⟨⟨hr, hc⟩, hrest⟩ := List.forall_mem_cons.mp hin
    have hcell := cellAt_placeCell_of_decided cw total h hr hc hd
    rw [List.foldl_cons, ih hrest (gridShape_placeCell h cw total rc) (hcell ▸ hd), hcell]

theorem cellAt_foldl_placeCell_of_notMem (cells : List (Nat × Nat)) (hin : ∀ rc ∈ cells, rc.1 < n ∧ rc.2 < n)
    (h : GridShape n st.1) (hmem : (r, c) ∉ cells) :
    cellAt (cells.foldl (placeCell cw total) st).1 r c = cellAt st.1 r c := by
  induction cells generalizing st with
  | nil => rfl
  | cons rc rest ih =>
    obtain ⟨⟨hr, hc⟩, hrest⟩ := List.forall_mem_cons.mp hin
    obtain ⟨hne, hmem'⟩ := not_or.mp (mt List.mem_cons.mpr hmem)
    rw [List.foldl_cons, ih hrest (gridShape_placeCell h cw total rc) hmem',
      cellAt_placeCell_of_ne cw total h hr hc hne]

/-- Every cell the placer looks at ends decided: it is decided by its first look and stays so. -/
theorem cellAt_foldl_placeCell_ne_unset (cells : List (Nat × Nat)) (hin : ∀ rc ∈ cells, rc.1 < n ∧ rc.2 < n)
    (h : GridShape n st.1) (hmem : (r, c) ∈ cells) :
    cellAt (cells.foldl (placeCell cw total) st).1 r c ≠ .unset := by
  induction cells generalizing st with
  | nil => exact absurd hmem List.not_mem_nil
  | cons rc rest ih =>
    obtain ⟨⟨hr, hc⟩, hrest⟩ := List.forall_mem_cons.mp hin
    have hshape := gridShape_placeCell h cw total rc
    rcases List.mem_cons.mp hmem with rfl | hmem'
    · have hd := cellAt_placeCell_self_ne_unset cw total h hr hc
      rw [List.foldl_cons, cellAt_foldl_placeCell_of_decided cw total rest hrest hshape hd]
      exact hd
    · exact ih hrest hshape hmem'

end Placer

/-! ### The matrix agrees with its phase (46_matrix.md R218) -/

/-- A stamp writes LIGHT or DARK, never UNSET. -/
theorem stampValue_ne_unset {n r c : Nat} {x : Cell} (h : stampValue n r c = some x) : x ≠ .unset := by
  obtain ⟨corner, -, hstamp⟩ := List.exists_of_findSome?_eq_some h
  simp only [stampOf] at hstamp
  split at hstamp
  · rw [← Option.some.inj hstamp]
    split <;> decide
  · cases hstamp

theorem cellOk_cleared {c : Config} {row col : Nat} {v : Cell} : cellOk c .cleared row col v = true ↔ v = .unset := by
  simp [cellOk]

theorem cellOk_stamped {c : Config} {row col : Nat} {v : Cell} :
    cellOk c .stamped row col v = true ↔ v = (stampValue c.n row col).getD .unset := by
  cases h : stampValue c.n row col <;> simp [cellOk, h]

theorem cellOk_placed_of_stamp {c : Config} {row col : Nat} {v x : Cell} (h : stampValue c.n row col = some x) :
    cellOk c .placed row col v = true ↔ v = x := by
  simp [cellOk, h]

theorem cellOk_placed_timing {c : Config} {row : Nat} {v : Cell} (h : stampValue c.n row c.timingCol = none) :
    cellOk c .placed row c.timingCol v = true ↔ v = .unset := by
  simp [cellOk, h]

theorem cellOk_placed_data {c : Config} {row col : Nat} {v : Cell} (h : stampValue c.n row col = none)
    (hcol : col ≠ c.timingCol) : cellOk c .placed row col v = true ↔ v ≠ .unset := by
  simp [cellOk, h, hcol]

/-- MXFIND takes a cleared matrix to a stamped one. -/
theorem State.mxInv_stamp {s : State} (h : s.MxInv) (hp : s.mxp = .cleared) :
    ({ s with mx := stampGrid s.cfg.n s.mx, mxp := .stamped } : State).MxInv := by
  obtain ⟨hshape, hcell⟩ := h
  refine ⟨gridShape_stampGrid hshape, fun row hrow col hcol => ?_⟩
  have hunset := hcell row hrow col hcol
  rw [hp, cellOk_cleared] at hunset
  exact cellOk_stamped.mpr ((cellAt_stampGrid hshape hrow hcol).trans (by rw [hunset]))

/-- MXPLACE takes a stamped matrix to a placed one: the stamps are decided and stay (a), the timing column is not
visited (b), every other cell is visited and so decided (c). -/
theorem State.mxInv_place {s : State} (hv : s.cfg.Valid) (h : s.MxInv) (hp : s.mxp = .stamped) (cw : List Byte) :
    ({ s with mx := (placeAll s.cfg cw s.mx).1, mxp := .placed } : State).MxInv := by
  obtain ⟨hshape, hcell⟩ := h
  refine ⟨gridShape_placeAll hshape cw, fun row hrow col hcol => ?_⟩
  have hin : ∀ rc ∈ visitOrder s.cfg, rc.1 < s.cfg.n ∧ rc.2 < s.cfg.n := fun rc hrc =>
    have hgrid := (mem_visitOrder hv).mp hrc
    ⟨hgrid.1, hgrid.2.1⟩
  have hold := cellOk_stamped.mp (hp ▸ hcell row hrow col hcol)
  cases hstamp : stampValue s.cfg.n row col with
  | some x =>
    rw [hstamp, Option.getD_some] at hold
    have hd : cellAt s.mx row col ≠ .unset := hold ▸ stampValue_ne_unset hstamp
    exact (cellOk_placed_of_stamp hstamp).mpr
      ((cellAt_foldl_placeCell_of_decided cw _ _ hin (st := (s.mx, 0)) hshape hd).trans hold)
  | none =>
    rw [hstamp, Option.getD_none] at hold
    by_cases ht : col = s.cfg.timingCol
    · subst ht
      have hmem : (row, s.cfg.timingCol) ∉ visitOrder s.cfg := fun hmem => ((mem_visitOrder hv).mp hmem).2.2 rfl
      exact (cellOk_placed_timing hstamp).mpr
        ((cellAt_foldl_placeCell_of_notMem cw _ _ hin (st := (s.mx, 0)) hshape hmem).trans hold)
    · exact (cellOk_placed_data hstamp ht).mpr
        (cellAt_foldl_placeCell_ne_unset cw _ _ hin (st := (s.mx, 0)) hshape
          ((mem_visitOrder hv).mpr ⟨hrow, hcol, ht⟩))

/-! ### Every command keeps the invariant: the commands that write a store -/

section Commands
variable {s t : State}

theorem State.Inv.after_execPpush (h : s.Inv) {pd : PReg} {c : Byte} (ht : execPpush pd c s = .next t) : t.Inv := by
  obtain ⟨-, hnf⟩ := h.polyOk_preg pd
  refine h.after_unlessLocked ?_ ht
  split
  · exact State.inv_answer _ h
  · next hnz =>
    refine h.require fun hroom => h.putPoly pd ⟨by simpa using hroom, ?_⟩
    by_cases hnil : s.preg pd = []
    · exact .inr (by rw [hnil]; exact fun hc => hnz ⟨hnil, hc⟩)
    · exact normalForm_append hnf hnil _

theorem State.Inv.after_execPshl (h : s.Inv) {pd : PReg} {sh : Half} (ht : execPshl pd sh s = .next t) : t.Inv := by
  obtain ⟨-, hnf⟩ := h.polyOk_preg pd
  refine h.after_unlessLocked ?_ ht
  split
  · exact State.inv_answer _ h
  · next hnz =>
    exact h.require fun hroom => h.putPoly pd
      ⟨by simpa using hroom, normalForm_append hnf (fun hnil => hnz (.inl hnil)) _⟩

theorem State.Inv.after_execPmul (h : s.Inv) {pd pa pb : PReg} (ht : execPmul pd pa pb s = .next t) : t.Inv := by
  refine h.after_unlessLocked (h.require fun hroom => h.putPoly pd ⟨?_, ?_⟩) ht
  · by_cases hnil : s.preg pa = [] ∨ s.preg pb = []
    · rw [polyMul_eq_nil hnil]
      exact Nat.zero_le _
    · obtain ⟨ha, hb⟩ := not_or.mp hnil
      rw [polyMul_length ha hb]
      exact (hroom.resolve_left ha).resolve_left hb
  · exact polyMul_normal (h.polyOk_preg pa).2 (h.polyOk_preg pb).2

theorem State.Inv.after_execPmod (h : s.Inv) {pd pa pb : PReg} (ht : execPmod pd pa pb s = .next t) : t.Inv := by
  obtain ⟨-, ha⟩ := h.polyOk_preg pa
  obtain ⟨hlen, hb⟩ := h.polyOk_preg pb
  exact h.after_unlessLocked (h.require fun hne => h.putPoly pd
    ⟨(polyMod_length_lt ha hb hne).le.trans hlen, polyMod_normal ha hb hne⟩) ht

theorem State.Inv.after_execPgen (h : s.Inv) {pd : PReg} {k : Half} (ht : execPgen pd k s = .next t) : t.Inv :=
  h.after_unlessLocked (h.require fun hroom =>
    State.inv_answer _ (h.setPreg pd ⟨(genPoly_length _).trans_le hroom, genPoly_normal _⟩)) ht

theorem State.Inv.putBits (h : s.Inv) (v : Half) {w : Nat} (hroom : s.count + w ≤ 8 * s.cfg.dataCount) :
    (State.putBits v w s).Inv := by
  have hbuf := State.bufInv_putBits v w h.bufInv hroom
  rw [State.putBits_frame] at hbuf ⊢
  exact h.setBuf hbuf

theorem State.Inv.after_execRsenc (h : s.Inv) (ht : execRsenc s = .next t) : t.Inv := by
  refine h.after_unlessLocked (h.require fun _ => State.inv_answer _ (h.setCw ?_)) ht
  rw [codewords_length, h.bufInv.1, Config.totalCount]

theorem State.Inv.after_execMxfind (h : s.Inv) (ht : execMxfind s = .next t) : t.Inv :=
  h.after_unlessLocked (h.require fun hp => State.inv_answer _ (h.setMx (State.mxInv_stamp h.mxInv hp))) ht

theorem State.Inv.after_execMxplace (h : s.Inv) (ht : execMxplace s = .next t) : t.Inv := by
  refine h.after_unlessLocked (h.require fun hp => ?_) ht
  split
  · exact State.inv_raise _ h
  · next cw _ => exact State.inv_answer _ (h.setMx (State.mxInv_place h.valid h.mxInv hp cw))

theorem State.Inv.after_execIllegal (h : s.Inv) (ht : execIllegal s = .next t) : t.Inv :=
  h.after_unlessLocked (State.inv_raise _ h) ht

/-! ### Every command keeps the invariant -/

/-- A command that only answers keeps the invariant out of lockout and in it. -/
theorem State.Inv.after_unlessLocked_answer (h : s.Inv) {v : Half} (ht : unlessLocked s (s.answer v) = .next t) :
    t.Inv := h.after_unlessLocked (State.inv_answer v h) ht

/-- A command that answers after one check keeps the invariant whether the check passes or not. -/
theorem State.Inv.after_unlessLocked_require_answer (h : s.Inv) {c : Prop} [Decidable c] {f : FaultCode} {v : Half}
    (ht : unlessLocked s (s.require c f (s.answer v)) = .next t) : t.Inv :=
  h.after_unlessLocked (h.require fun _ => State.inv_answer v h) ht

theorem State.Inv.after_next_answer (h : s.Inv) {v : Half}
    (ht : (.next (s.answer v) : Host.Outcome State Fault Refusal) = .next t) : t.Inv := by
  cases ht
  exact State.inv_answer v h

/-- Every command keeps the invariant: it answers only, or writes one store in a way that keeps that store's form. -/
theorem State.Inv.after_exec (h : s.Inv) {i : Instr} (ht : exec i s = .next t) : t.Inv := by
  cases i with
  | nop => exact h.after_next_answer ht
  | rdst => exact h.after_next_answer ht
  | rdcfg sel =>
    simp only [exec, execRdcfg] at ht
    split at ht
    · exact h.after_next_answer ht
    · exact h.after_unlessLocked (State.inv_raise _ h) ht
  | srst => exact h.softReset.after_next_answer ht
  | gflog a =>
    refine h.after_unlessLocked ?_ ht
    split
    · exact State.inv_answer _ h
    · exact State.inv_raise _ h
  | gfexp n => exact h.after_unlessLocked_answer ht
  | gfmul a b => exact h.after_unlessLocked_answer ht
  | gfadd a b => exact h.after_unlessLocked_answer ht
  | pclr pd => exact h.after_unlessLocked (State.inv_answer _ (h.setPreg pd (polyOk_nil _))) ht
  | ppush pd c => exact h.after_execPpush ht
  | pshl pd sh => exact h.after_execPshl ht
  | plen pa => exact h.after_unlessLocked_answer ht
  | pget pa idx => exact h.after_unlessLocked_require_answer ht
  | pmul pd pa pb => exact h.after_execPmul ht
  | pmod pd pa pb => exact h.after_execPmod ht
  | pgen pd k => exact h.after_execPgen ht
  | bclr => exact h.after_unlessLocked (State.inv_answer _ (h.setBuf (State.bufInv_of_empty rfl rfl))) ht
  | bput v w =>
    exact h.after_unlessLocked (h.require fun _ => h.require fun hroom => State.inv_answer _ (h.putBits v hroom)) ht
  | bputb bit =>
    exact h.after_unlessLocked (h.require fun hroom =>
      State.inv_answer _ (h.setBuf (State.bufInv_putBit h.bufInv hroom bit))) ht
  | bget idx => exact h.after_unlessLocked_require_answer ht
  | bcnt => exact h.after_unlessLocked_answer ht
  | brdb j => exact h.after_unlessLocked_require_answer ht
  | rsenc => exact h.after_execRsenc ht
  | cwrd idx =>
    refine h.after_unlessLocked ?_ ht
    split
    · exact State.inv_raise _ h
    · exact h.require fun _ => State.inv_answer _ h
  | mxclr => exact h.after_unlessLocked (State.inv_answer _ (h.setMx (State.mxInv_of_cleared rfl rfl))) ht
  | mxfind => exact h.after_execMxfind ht
  | mxplace => exact h.after_execMxplace ht
  | mxrd row col => exact h.after_unlessLocked_require_answer ht
  | mxdark row col => exact h.after_unlessLocked (h.require fun _ => h.require fun _ => State.inv_answer _ h) ht
  | mxsize => exact h.after_unlessLocked_answer ht

end Commands

/-- Taking a word off the port writes no store. -/
theorem State.Inv.setPort {s : State} (h : s.Inv) (p : List Word) : ({ s with port := p } : State).Inv := h

/-- Settles O54: a step waits, runs a command or answers an illegal word, and each keeps the invariant. -/
theorem everyStepKeepsTheInvariant : Obligations.EveryStepKeepsTheInvariant := by
  intro s t h ht
  rcases step_cases s with ⟨-, he⟩ | ⟨w, rest, i, -, -, he⟩ | ⟨w, rest, e, -, -, he⟩
  · cases he.symm.trans ht
    exact h
  · exact (h.setPort rest).after_exec (he.symm.trans ht)
  · exact (h.setPort rest).after_execIllegal (he.symm.trans ht)

/-! ### No command reads the port (10_state.md R38, R40) -/

/-- The same state with other words on its port. -/
def State.withPort (s : State) (p : List Word) : State := { s with port := p }

/-- The same outcome with other words on the port of a next state. -/
def outcomeWithPort (p : List Word) : Host.Outcome State Fault Refusal → Host.Outcome State Fault Refusal
  | .next t => .next (t.withPort p)
  | .fault r => .fault r
  | .refused r => .refused r

section Port
variable (s : State) (p : List Word)

@[simp] theorem State.withPort_cw : (s.withPort p).cw = s.cw := rfl

@[simp] theorem State.withPort_response : (s.withPort p).response = s.response := rfl

theorem unlessLocked_withPort {t t' : State} (ht : t' = t.withPort p) :
    unlessLocked (s.withPort p) t' = outcomeWithPort p (unlessLocked s t) := by
  subst ht
  cases hf : s.faultCode with
  | none => rw [unlessLocked_open hf, unlessLocked_open (s := s.withPort p) hf]; rfl
  | some f => rw [unlessLocked_locked hf, unlessLocked_locked (s := s.withPort p) hf]; rfl

theorem ite_withPort {c : Prop} [Decidable c] {t t' u u' : State} (ht : t' = t.withPort p) (hu : u' = u.withPort p) :
    (if c then t' else u') = (if c then t else u).withPort p := by
  rw [ht, hu, apply_ite (State.withPort · p)]

theorem State.require_withPort {c : Prop} [Decidable c] {f : FaultCode} {t t' : State} (ht : t' = t.withPort p) :
    (s.withPort p).require c f t' = (s.require c f t).withPort p := ite_withPort p ht rfl

theorem State.setPreg_withPort (d : PReg) (v : List Byte) :
    (s.withPort p).setPreg d v = (s.setPreg d v).withPort p := by
  cases d <;> rfl

theorem State.answer_setPreg_withPort (d : PReg) (v : List Byte) (x : Half) :
    ((s.withPort p).setPreg d v).answer x = ((s.setPreg d v).answer x).withPort p := by
  rw [State.setPreg_withPort]
  rfl

theorem State.putBits_withPort (v : Half) (k : Nat) :
    State.putBits v k (s.withPort p) = (State.putBits v k s).withPort p := by
  induction k generalizing s with
  | zero => rfl
  | succ k ih => exact ih (s.putBit (v.getLsbD k))

/-- A command does the same whatever words stand on the port, and leaves them there. -/
theorem exec_withPort (i : Instr) : exec i (s.withPort p) = outcomeWithPort p (exec i s) := by
  cases i with
  | nop => rfl
  | rdst => rfl
  | rdcfg sel =>
    simp only [exec, execRdcfg, State.withPort]
    split
    · rfl
    · exact unlessLocked_withPort s p rfl
  | srst => rfl
  | gflog a =>
    refine unlessLocked_withPort s p ?_
    split <;> rfl
  | gfexp n => exact unlessLocked_withPort s p rfl
  | gfmul a b => exact unlessLocked_withPort s p rfl
  | gfadd a b => exact unlessLocked_withPort s p rfl
  | pclr pd => exact unlessLocked_withPort s p (s.answer_setPreg_withPort p ..)
  | ppush pd c =>
    exact unlessLocked_withPort s p
      (ite_withPort p rfl (s.require_withPort p (s.answer_setPreg_withPort p ..)))
  | pshl pd sh =>
    exact unlessLocked_withPort s p
      (ite_withPort p rfl (s.require_withPort p (s.answer_setPreg_withPort p ..)))
  | plen pa => exact unlessLocked_withPort s p rfl
  | pget pa idx => exact unlessLocked_withPort s p (s.require_withPort p rfl)
  | pmul pd pa pb => exact unlessLocked_withPort s p (s.require_withPort p (s.answer_setPreg_withPort p ..))
  | pmod pd pa pb => exact unlessLocked_withPort s p (s.require_withPort p (s.answer_setPreg_withPort p ..))
  | pgen pd k => exact unlessLocked_withPort s p (s.require_withPort p (s.answer_setPreg_withPort p ..))
  | bclr => exact unlessLocked_withPort s p rfl
  | bput v w =>
    refine unlessLocked_withPort s p (s.require_withPort p (s.require_withPort p ?_))
    rw [State.putBits_withPort]
    rfl
  | bputb bit => exact unlessLocked_withPort s p (s.require_withPort p rfl)
  | bget idx => exact unlessLocked_withPort s p (s.require_withPort p rfl)
  | bcnt => exact unlessLocked_withPort s p rfl
  | brdb j => exact unlessLocked_withPort s p (s.require_withPort p rfl)
  | rsenc => exact unlessLocked_withPort s p (s.require_withPort p rfl)
  | cwrd idx =>
    refine unlessLocked_withPort s p ?_
    rw [State.withPort_cw]
    cases s.cw with
    | none => rfl
    | some cw => exact s.require_withPort p rfl
  | mxclr => exact unlessLocked_withPort s p rfl
  | mxfind => exact unlessLocked_withPort s p (s.require_withPort p rfl)
  | mxplace =>
    refine unlessLocked_withPort s p (s.require_withPort p ?_)
    rw [State.withPort_cw]
    cases s.cw with
    | none => rfl
    | some cw => rfl
  | mxrd row col => exact unlessLocked_withPort s p (s.require_withPort p rfl)
  | mxdark row col => exact unlessLocked_withPort s p (s.require_withPort p (s.require_withPort p rfl))
  | mxsize => exact unlessLocked_withPort s p rfl

/-- A host's run gets the same answers whatever words stand on the port, and leaves them there. -/
theorem hostRun_withPort (is : List Instr) :
    hostRun is (s.withPort p) = ((hostRun is s).1, (hostRun is s).2.withPort p) := by
  induction is generalizing s with
  | nil => rfl
  | cons i rest ih =>
    rw [hostRun, hostRun, exec_withPort]
    cases exec i s with
    | next t =>
      simp only [outcomeWithPort, State.withPort_response, ih]
      cases t.response with
      | none => rfl
      | some r => dsimp only; split <;> rfl
    | fault r => rfl
    | refused r => rfl

end Port

/-! ### What follows an SRST (10_state.md R40) -/

/-- SRST leaves of the state before it the parameters and the port only. -/
theorem exec_srst_of_cfg_eq {s₁ s₂ : State} (h : s₁.cfg = s₂.cfg) :
    exec .srst s₂ = exec .srst (s₁.withPort s₂.port) := by
  simp only [exec, execSrst, State.softReset, State.withPort, State.answer, h]

/-- A run that begins with SRST depends on the parameters and the port only. -/
theorem hostRun_srst_of_cfg_eq (is : List Instr) {s₁ s₂ : State} (h : s₁.cfg = s₂.cfg) :
    hostRun (.srst :: is) s₂ = hostRun (.srst :: is) (s₁.withPort s₂.port) := by
  rw [hostRun, exec_srst_of_cfg_eq h]
  rfl

/-- Settles O57: SRST forgets all but the parameters and the port, and no command of the run reads the port. -/
theorem anEncodeCallForgetsTheStateBeforeIt : Obligations.AnEncodeCallForgetsTheStateBeforeIt := by
  intro is s₁ s₂ h
  rw [hostRun_srst_of_cfg_eq is h, hostRun_withPort]
  exact ⟨rfl, rfl⟩

end Sys2Proof.Machine
end

section
/-! SUPPORT. The obligations of the stores and the command port, with what a command may do said once: refuse, raise a
fault, or answer after writing at most one store (20_memory.md R60, 60_exceptions.md R247, R250). -/

namespace Sys2Proof.Machine

/-! ### The command port (20_memory.md R70, 70_reset_and_hazards.md R271) -/

theorem step_of_port_nil {s : State} (hp : s.port = []) : step s = .next s := by
  rw [step, State.takeCommand_nil hp]
  rfl

theorem step_of_decode_ok {s : State} {w : Word} {rest : List Word} {i : Instr} (hp : s.port = w :: rest)
    (hd : decode w = .ok i) : step s = exec i { s with port := rest } := by
  rw [step, State.takeCommand_cons hp]
  simp only [hd]

/-- Settles O5: a step takes the first word off the port, if there is one, and runs what it decodes to. -/
theorem stepRunsTheDecodedCommandOrWaits : Obligations.StepRunsTheDecodedCommandOrWaits :=
  ⟨fun _ _ _ _ hp hd => step_of_decode_ok hp hd, fun _ hp => step_of_port_nil hp⟩

/-! ### What a command may do -/

/-- `u` is `s` after the write of command `i` that succeeds: at most one store of those R60 gives it, or what SRST
writes. -/
inductive StoreWrite (i : Instr) (s : State) : State → Prop
  | nothing : StoreWrite i s s
  | preg (d : PReg) (v : List Byte) (h : mayWritePreg d i = true) : StoreWrite i s (s.setPreg d v)
  | buf (b : List Byte) (k : Nat) (h : mayWriteBuf i = true) : StoreWrite i s { s with buf := b, count := k }
  | cw (l : List Byte) (h : mayWriteCw i = true) : StoreWrite i s { s with cw := some l }
  | mx (m : List (List Cell)) (p : Phase) (h : mayWriteMx i = true) : StoreWrite i s { s with mx := m, mxp := p }
  | softReset (h : i = .srst) : StoreWrite i s s.softReset

/-- `t` is what command `i` may leave of `s`: the refusal in lockout (R250), a fault out of lockout (R247), or the
answer after its write. -/
inductive Effect (i : Instr) (s : State) : State → Prop
  | refused (hlock : s.faultCode ≠ none) (hi : executesInLockout i = false) : Effect i s s.refuse
  | raised (f : FaultCode) (hopen : s.faultCode = none) (hi : executesInLockout i = false) : Effect i s (s.raise f)
  | answered {u : State} (v : Half) (hrun : s.faultCode = none ∨ executesInLockout i = true) (hw : StoreWrite i s u) :
    Effect i s (u.answer v)

section Effects
variable {i : Instr} {s t : State}

theorem StoreWrite.putBits (v : Half) (k : Nat) (h : mayWriteBuf i = true) : StoreWrite i s (State.putBits v k s) := by
  rw [State.putBits_frame]
  exact .buf _ _ h

theorem unlessLocked_effect (hi : executesInLockout i = false) (h : s.faultCode = none → Effect i s t) :
    ∃ u, unlessLocked s t = .next u ∧ Effect i s u := by
  cases hf : s.faultCode with
  | none => exact ⟨t, unlessLocked_open hf, h hf⟩
  | some f => exact ⟨s.refuse, unlessLocked_locked hf, .refused (by simp [hf]) hi⟩

theorem Effect.of_require {c : Prop} [Decidable c] {f : FaultCode} (hopen : s.faultCode = none)
    (hi : executesInLockout i = false) (h : c → Effect i s t) : Effect i s (s.require c f t) := by
  rcases s.require_cases t c f with ⟨hc, he⟩ | ⟨-, he⟩
  · rw [he]; exact h hc
  · rw [he]; exact .raised f hopen hi

/-- RDCFG runs in lockout exactly for the selectors that name a configuration word (R254). -/
theorem executesInLockout_rdcfg (sel : Half) (c : Config) :
    executesInLockout (.rdcfg sel) = (configWord c sel.toNat).isSome := by
  rw [Bool.eq_iff_iff, executesInLockout, decide_eq_true_iff, configWord, isSome_getElem?]
  exact Nat.lt_succ_iff.symm

/-- Every command answers a next state, and leaves it as one of the three effects says. -/
theorem exec_effect (i : Instr) (s : State) : ∃ t, exec i s = .next t ∧ Effect i s t := by
  cases i with
  | nop | rdst => exact ⟨_, rfl, .answered _ (.inr rfl) .nothing⟩
  | srst => exact ⟨_, rfl, .answered _ (.inr rfl) (.softReset rfl)⟩
  | rdcfg sel =>
    have hi := executesInLockout_rdcfg sel s.cfg
    simp only [exec, execRdcfg]
    split
    · next v hv =>
      rw [hv] at hi
      exact ⟨_, rfl, .answered _ (.inr hi) .nothing⟩
    · next hv =>
      rw [hv] at hi
      exact unlessLocked_effect hi fun hopen => .raised _ hopen hi
  | gflog a =>
    refine unlessLocked_effect rfl fun hopen => ?_
    split
    · exact .answered _ (.inl hopen) .nothing
    · exact .raised _ hopen rfl
  | gfexp | gfmul | gfadd | plen | bcnt | mxsize =>
    exact unlessLocked_effect rfl fun hopen => .answered _ (.inl hopen) .nothing
  | pget | bget | brdb | mxrd =>
    exact unlessLocked_effect rfl fun hopen => .of_require hopen rfl fun _ => .answered _ (.inl hopen) .nothing
  | mxdark =>
    exact unlessLocked_effect rfl fun hopen => .of_require hopen rfl fun _ =>
      .of_require hopen rfl fun _ => .answered _ (.inl hopen) .nothing
  | cwrd idx =>
    refine unlessLocked_effect rfl fun hopen => ?_
    split
    · exact .raised _ hopen rfl
    · exact .of_require hopen rfl fun _ => .answered _ (.inl hopen) .nothing
  | pclr pd =>
    exact unlessLocked_effect rfl fun hopen => .answered _ (.inl hopen) (.preg pd _ (decide_eq_true rfl))
  | ppush pd | pshl pd =>
    refine unlessLocked_effect rfl fun hopen => ?_
    split
    · exact .answered _ (.inl hopen) .nothing
    · exact .of_require hopen rfl fun _ => .answered _ (.inl hopen) (.preg pd _ (decide_eq_true rfl))
  | pmul pd | pmod pd | pgen pd =>
    exact unlessLocked_effect rfl fun hopen => .of_require hopen rfl fun _ =>
      .answered _ (.inl hopen) (.preg pd _ (decide_eq_true rfl))
  | bclr => exact unlessLocked_effect rfl fun hopen => .answered _ (.inl hopen) (.buf _ _ rfl)
  | bput v w =>
    exact unlessLocked_effect rfl fun hopen => .of_require hopen rfl fun _ =>
      .of_require hopen rfl fun _ => .answered _ (.inl hopen) (.putBits v _ rfl)
  | bputb bit =>
    exact unlessLocked_effect rfl fun hopen => .of_require hopen rfl fun _ =>
      .answered _ (.inl hopen) (.buf _ _ rfl)
  | rsenc =>
    exact unlessLocked_effect rfl fun hopen => .of_require hopen rfl fun _ => .answered _ (.inl hopen) (.cw _ rfl)
  | mxclr => exact unlessLocked_effect rfl fun hopen => .answered _ (.inl hopen) (.mx _ _ rfl)
  | mxfind =>
    exact unlessLocked_effect rfl fun hopen => .of_require hopen rfl fun _ => .answered _ (.inl hopen) (.mx _ _ rfl)
  | mxplace =>
    refine unlessLocked_effect rfl fun hopen => .of_require hopen rfl fun _ => ?_
    split
    · exact .raised _ hopen rfl
    · exact .answered _ (.inl hopen) (.mx _ _ rfl)

theorem Effect.of_exec (h : exec i s = .next t) : Effect i s t := by
  obtain ⟨u, hu, he⟩ := exec_effect i s
  cases hu.symm.trans h
  exact he

/-! ### The stores a command leaves alone (20_memory.md R60) -/

/-- `t` differs from `s` at most in the stores that R60 gives command `i`, and in `STATUS.FAULT` and the response. -/
def KeepsOtherStores (i : Instr) (s t : State) : Prop :=
  (∀ d, t.preg d ≠ s.preg d → mayWritePreg d i = true) ∧
    ((t.buf ≠ s.buf ∨ t.count ≠ s.count) → mayWriteBuf i = true) ∧
    (t.cw ≠ s.cw → mayWriteCw i = true) ∧
    ((t.mx ≠ s.mx ∨ t.mxp ≠ s.mxp) → mayWriteMx i = true) ∧
    t.cfg = s.cfg ∧ t.port = s.port

theorem KeepsOtherStores.refl (i : Instr) (s : State) : KeepsOtherStores i s s := by simp [KeepsOtherStores]

theorem StoreWrite.keepsOtherStores (hw : StoreWrite i s t) : KeepsOtherStores i s t := by
  cases hw with
  | nothing => exact .refl i s
  | preg d v h =>
    have hpreg : ∀ e, (s.setPreg d v).preg e ≠ s.preg e → mayWritePreg e i = true := fun e hne => by
      by_cases he : e = d
      · exact he ▸ h
      · exact absurd (s.preg_setPreg_ne he v) hne
    exact ⟨hpreg, by simp, by simp, by simp, by simp, by simp⟩
  | buf b k h =>
    obtain ⟨hpreg, -, hrest⟩ := KeepsOtherStores.refl i s
    exact ⟨hpreg, fun _ => h, hrest⟩
  | cw l h =>
    obtain ⟨hpreg, hbuf, -, hrest⟩ := KeepsOtherStores.refl i s
    exact ⟨hpreg, hbuf, fun _ => h, hrest⟩
  | mx m p h =>
    obtain ⟨hpreg, hbuf, hcw, -, hrest⟩ := KeepsOtherStores.refl i s
    exact ⟨hpreg, hbuf, hcw, fun _ => h, hrest⟩
  | softReset h =>
    subst h
    exact ⟨fun _ _ => rfl, fun _ => rfl, fun _ => rfl, fun _ => rfl, rfl, rfl⟩

theorem Effect.keepsOtherStores (he : Effect i s t) : KeepsOtherStores i s t := by
  cases he with
  | refused | raised => exact .refl i s
  | answered v _ hw => exact hw.keepsOtherStores

/-! ### Commands that write no store (20_memory.md R68) -/

theorem StoreWrite.eq_of_mayWrite_nothing (hw : StoreWrite i s t) (hpreg : ∀ d, mayWritePreg d i = false)
    (hbuf : mayWriteBuf i = false) (hcw : mayWriteCw i = false) (hmx : mayWriteMx i = false) : t = s := by
  cases hw with
  | nothing => rfl
  | preg d v h => cases h.symm.trans (hpreg d)
  | buf b k h => cases h.symm.trans hbuf
  | cw l h => cases h.symm.trans hcw
  | mx m p h => cases h.symm.trans hmx
  | softReset h => subst h; cases hbuf

/-- The same state with another response. -/
def State.withResponse (s : State) (r : Option Word) : State := { s with response := r }

/-- A command that may write no store and raises no fault writes the response only. -/
theorem Effect.eq_withResponse (he : Effect i s t) (hpreg : ∀ d, mayWritePreg d i = false)
    (hbuf : mayWriteBuf i = false) (hcw : mayWriteCw i = false) (hmx : mayWriteMx i = false)
    (hf : t.faultCode = s.faultCode) : t = s.withResponse t.response := by
  cases he with
  | refused => rfl
  | raised f hopen => rw [State.raise_faultCode, hopen] at hf; cases hf
  | answered v _ hw => rw [hw.eq_of_mayWrite_nothing hpreg hbuf hcw hmx]; rfl

theorem State.putBits_withResponse (v : Half) (k : Nat) (s : State) (r : Option Word) :
    State.putBits v k (s.withResponse r) = (State.putBits v k s).withResponse r := by
  induction k generalizing s with
  | zero => rfl
  | succ k ih => exact ih (s.putBit (v.getLsbD k))

/-- No command reads the response before it, and every command writes its own. -/
theorem exec_withResponse (i : Instr) (s : State) (r : Option Word) : exec i (s.withResponse r) = exec i s := by
  cases i with
  | pclr pd | ppush pd | pshl pd | pmul pd | pmod pd | pgen pd => cases pd <;> rfl
  | bput v w =>
    simp only [exec, execBput, State.putBits_withResponse]
    rfl
  | _ => rfl

end Effects

/-- Settles O55: a command refuses, faults, or answers after a write that R60 gives it. -/
theorem storesAreWrittenOnlyByTheirCommands : Obligations.StoresAreWrittenOnlyByTheirCommands :=
  fun _ _ _ h => (Effect.of_exec h).keepsOtherStores

/-- Settles O56: such a command writes the response only, and no command reads the response. -/
theorem readsHaveNoSideEffect : Obligations.ReadsHaveNoSideEffect := by
  intro i s t hpreg hbuf hcw hmx h hf
  have ht := (Effect.of_exec h).eq_withResponse hpreg hbuf hcw hmx hf
  have hagain : exec i t = exec i s := by rw [ht, exec_withResponse]
  exact ⟨ht, hagain.trans h⟩

end Sys2Proof.Machine
end

section
/-! SUPPORT. The obligations of the encoding: a word selects at most one row, a command's word matches its own row, and
the operands of a row are all that its mask leaves open (30_encoding.md R81, R86 to R88); and the answer of a command
word as R84 lays it out. -/

namespace Sys2Proof

/-! ### The row a word matches (30_encoding.md R86 to R88) -/

/-- Word `w` matches row `op` of the opcode table, with the extra condition on BPUT's width (R86). -/
def MatchesRow (op : Op) (w : Word) : Prop := w &&& op.mask = op.patt ∧ (op = .bput → (wField w).toNat ≤ 16)

section Rows
variable {op : Op} {w w' : Word} {i : Instr}

/-- Every mask covers bits 31:24, so a word that matches a row has its opcode. -/
theorem opcField_of_and_mask (h : w &&& op.mask = op.patt) : opcField w = op.code :=
  calc opcField w = opcField w &&& 0xFF#8 := BitVec.and_allOnes.symm
    _ = opcField (w &&& op.mask) := by rw [← mask_opcode op, opcField, opcField, BitVec.extractLsb'_and]
    _ = op.code := by rw [h]; cases op <;> rfl

theorem opOfCode_of_and_mask (h : w &&& op.mask = op.patt) : opOfCode (opcField w) = some op := by
  rw [opcField_of_and_mask h, opOfCode_code]

/-- BPUT's width is the only operand that can be ill formed (R82, R87). -/
theorem wellFormed_readOperands : (readOperands op w).wellFormed = true ↔ (op = .bput → (wField w).toNat ≤ 16) := by
  cases op with
  | bput => simp [readOperands, Instr.wellFormed]
  | _ => exact ⟨fun _ => nofun, fun _ => rfl⟩

theorem decode_eq_ok_iff : decode w = .ok i ↔ ∃ op, MatchesRow op w ∧ readOperands op w = i := by
  constructor
  · intro h
    unfold decode at h
    split at h
    · cases h
    · next op _ =>
      split at h
      · next hm =>
        split at h
        · next hw => exact ⟨op, ⟨hm, wellFormed_readOperands.mp hw⟩, Except.ok.inj h⟩
        · cases h
      · cases h
  · rintro ⟨op, ⟨hm, hw⟩, rfl⟩
    simp only [decode, opOfCode_of_and_mask hm, if_pos hm, if_pos (wellFormed_readOperands.mpr hw)]

theorem decode_eq_error_iff : (∃ e, decode w = .error e) ↔ ∀ op, ¬MatchesRow op w := by
  constructor
  · rintro ⟨e, he⟩ op hm
    cases he.symm.trans (decode_eq_ok_iff.mpr ⟨op, hm, rfl⟩)
  · intro h
    cases hd : decode w with
    | error e => exact ⟨e, rfl⟩
    | ok i =>
      obtain ⟨op, hm, -⟩ := decode_eq_ok_iff.mp hd
      exact absurd hm (h op)

/-! ### The word of a command (30_encoding.md R81) -/

/-- The word of a command matches the mask of its own row. -/
theorem encode_and_mask (i : Instr) : encode i &&& (opOf i).mask = (opOf i).patt := by
  cases i with
  | nop => exact Laws.Row.nop
  | rdst => exact Laws.Row.rdst
  | rdcfg sel => exact Laws.Row.rdcfg sel
  | srst => exact Laws.Row.srst
  | gflog a => exact Laws.Row.gflog a
  | gfexp n => exact Laws.Row.gfexp n
  | gfmul a b => exact Laws.Row.gfmul a b
  | gfadd a b => exact Laws.Row.gfadd a b
  | pclr pd => exact Laws.Row.pclr pd
  | ppush pd c => exact Laws.Row.ppush pd c
  | pshl pd sh => exact Laws.Row.pshl pd sh
  | plen pa => exact Laws.Row.plen pa
  | pget pa idx => exact Laws.Row.pget pa idx
  | pmul pd pa pb => exact Laws.Row.pmul pd pa pb
  | pmod pd pa pb => exact Laws.Row.pmod pd pa pb
  | pgen pd k => exact Laws.Row.pgen pd k
  | bclr => exact Laws.Row.bclr
  | bput v w => exact Laws.Row.bput v w
  | bputb bit => exact Laws.Row.bputb bit
  | bget idx => exact Laws.Row.bget idx
  | bcnt => exact Laws.Row.bcnt
  | brdb j => exact Laws.Row.brdb j
  | rsenc => exact Laws.Row.rsenc
  | cwrd idx => exact Laws.Row.cwrd idx
  | mxclr => exact Laws.Row.mxclr
  | mxfind => exact Laws.Row.mxfind
  | mxplace => exact Laws.Row.mxplace
  | mxrd row col => exact Laws.Row.mxrd row col
  | mxdark row col => exact Laws.Row.mxdark row col
  | mxsize => exact Laws.Row.mxsize

/-- Each format gives its operands back. -/
theorem readOperands_encode (i : Instr) : readOperands (opOf i) (encode i) = i := by
  cases i with
  | gflog => simp [readOperands, opOf, encode, loByteField_fmtA]
  | rdcfg | gfexp | bget | brdb | cwrd => simp [readOperands, opOf, encode, immField_fmtI]
  | gfmul | gfadd | mxrd | mxdark => simp [readOperands, opOf, encode, hiByteField_fmtAB, loByteField_fmtAB]
  | pclr => simp [readOperands, opOf, encode, pdField_fmtP]
  | ppush => simp [readOperands, opOf, encode, pdField_fmtP, loByteField_fmtP]
  | pshl | pgen => simp [readOperands, opOf, encode, pdField_fmtP, immField_fmtP]
  | plen => simp [readOperands, opOf, encode, paField_fmtP]
  | pget => simp [readOperands, opOf, encode, paField_fmtP, immField_fmtP]
  | pmul | pmod => simp [readOperands, opOf, encode, pdField_fmtP, paField_fmtP, pbField_fmtP]
  | bput => simp [readOperands, opOf, encode, immField_fmtW, wField_fmtW]
  | bputb => simp [readOperands, opOf, encode, bitField_fmtB]
  | _ => rfl

theorem matchesRow_encode (h : i.wellFormed = true) : MatchesRow (opOf i) (encode i) := by
  refine ⟨encode_and_mask i, wellFormed_readOperands.mp ?_⟩
  rwa [readOperands_encode]

/-! ### The operands are all that a mask leaves open (30_encoding.md R81, R86) -/

/-- Ones in the `n` bits from bit `lo` on. -/
def fieldMask (lo n : Nat) : Word := (BitVec.allOnes n).setWidth 32 <<< lo

/-- Words with the same field agree on its bits. -/
theorem and_fieldMask_congr {lo n : Nat} (h : w.extractLsb' lo n = w'.extractLsb' lo n) :
    w &&& fieldMask lo n = w' &&& fieldMask lo n := by
  apply BitVec.eq_of_getLsbD_eq
  intro k hk
  by_cases hin : lo ≤ k ∧ k - lo < n
  · have hbit := congrArg (·.getLsbD (k - lo)) h
    simp only [BitVec.getLsbD_extractLsb', hin.2, decide_true, Bool.true_and, Nat.add_sub_cancel' hin.1] at hbit
    rw [BitVec.getLsbD_and, BitVec.getLsbD_and, hbit]
  · have hout : (fieldMask lo n).getLsbD k = false := by
      simp only [fieldMask, BitVec.getLsbD_shiftLeft, BitVec.getLsbD_setWidth, BitVec.getLsbD_allOnes,
        Bool.and_eq_false_iff, Bool.not_eq_false', decide_eq_false_iff_not, decide_eq_true_iff]
      omega
    rw [BitVec.getLsbD_and, BitVec.getLsbD_and, hout, Bool.and_false, Bool.and_false]

theorem and_or_congr {m m' : Word} (h : w &&& m = w' &&& m) (h' : w &&& m' = w' &&& m') :
    w &&& (m ||| m') = w' &&& (m ||| m') := by
  rw [BitVec.and_or_distrib_left, BitVec.and_or_distrib_left, h, h']

theorem pregOfBits_injective : Function.Injective pregOfBits := Function.LeftInverse.injective pregBits_pregOfBits

theorem extractLsb'_zero_one_congr (h : bitField w = bitField w') : w.extractLsb' 0 1 = w'.extractLsb' 0 1 := by
  ext k hk
  obtain rfl : k = 0 := Nat.lt_one_iff.mp hk
  simpa [bitField] using h

/-- A word's operands are its bits outside the mask of its row: the complement of each mask computes to the
`fieldMask`s of the fields the row uses. -/
theorem and_not_mask_congr (h : readOperands op w = readOperands op w') : w &&& ~~~op.mask = w' &&& ~~~op.mask := by
  cases op with
  | gflog =>
    injection h with ha
    exact and_fieldMask_congr ha
  | rdcfg | gfexp | bget | brdb | cwrd =>
    injection h with himm
    exact and_fieldMask_congr himm
  | gfmul | gfadd | mxrd | mxdark =>
    injection h with hhi hlo
    exact and_or_congr (and_fieldMask_congr hhi) (and_fieldMask_congr hlo)
  | pclr | plen =>
    injection h with hreg
    exact and_fieldMask_congr (pregOfBits_injective hreg)
  | ppush | pshl | pget | pgen =>
    injection h with hreg himm
    exact and_or_congr (and_fieldMask_congr (pregOfBits_injective hreg)) (and_fieldMask_congr himm)
  | pmul | pmod =>
    injection h with hd ha hb
    exact and_or_congr (and_fieldMask_congr (pregOfBits_injective hd))
      (and_or_congr (and_fieldMask_congr (pregOfBits_injective ha)) (and_fieldMask_congr (pregOfBits_injective hb)))
  | bput =>
    injection h with hv hw
    exact and_or_congr (and_fieldMask_congr hv) (and_fieldMask_congr hw)
  | bputb =>
    injection h with hbit
    exact and_fieldMask_congr (extractLsb'_zero_one_congr hbit)
  | _ => exact BitVec.and_zero.trans BitVec.and_zero.symm

/-- A row and its operands fix the word. -/
theorem eq_of_and_mask_of_readOperands (hw : w &&& op.mask = op.patt) (hw' : w' &&& op.mask = op.patt)
    (h : readOperands op w = readOperands op w') : w = w' := by
  have hall : w &&& (op.mask ||| ~~~op.mask) = w' &&& (op.mask ||| ~~~op.mask) :=
    and_or_congr (hw.trans hw'.symm) (and_not_mask_congr h)
  rwa [BitVec.or_not_self, BitVec.and_allOnes, BitVec.and_allOnes] at hall

theorem opOf_readOperands (op : Op) (w : Word) : opOf (readOperands op w) = op := by cases op <;> rfl

theorem encode_readOperands (h : w &&& op.mask = op.patt) : encode (readOperands op w) = w := by
  have hmask := encode_and_mask (readOperands op w)
  have hread := readOperands_encode (readOperands op w)
  rw [opOf_readOperands] at hmask hread
  exact eq_of_and_mask_of_readOperands hmask h hread

end Rows
end Sys2Proof

namespace Sys2Proof.Machine

/-! ### Decoding -/

/-- Settles O1: each word is decoded by computation. -/
theorem specWordsDecode : Obligations.SpecWordsDecode := by
  unfold Obligations.SpecWordsDecode
  decide

/-- Settles O2: the word of a command matches the command's own row, and the row reads the operands back. -/
theorem decodeOfEncodeIsTheCommand : Obligations.DecodeOfEncodeIsTheCommand :=
  fun i hi => decode_eq_ok_iff.mpr ⟨opOf i, matchesRow_encode hi, readOperands_encode i⟩

/-- Settles O3: a row and its operands fix the word, so the word of the decoded command is the word itself. -/
theorem legalWordsAreTheirCommandsWords : Obligations.LegalWordsAreTheirCommandsWords := by
  intro w i h
  obtain ⟨op, ⟨hmask, hwidth⟩, rfl⟩ := decode_eq_ok_iff.mp h
  exact ⟨wellFormed_readOperands.mpr hwidth, encode_readOperands hmask⟩

/-! ### Illegal words and the response of a fault (30_encoding.md R84, R87; 60_exceptions.md R247, R250) -/

theorem step_of_decode_error {s : State} {w : Word} {rest : List Word} {e : Illegal} (hp : s.port = w :: rest)
    (hd : decode w = .error e) : step s = execIllegal { s with port := rest } := by
  rw [step, State.takeCommand_cons hp]
  simp only [hd]

theorem responseWord_true_zero : ∀ f : BitVec 4, responseWord true f 0 = faultWord f := by decide

theorem State.raise_eq_afterFault (s : State) (f : FaultCode) : s.raise f = afterFault s f := by
  rw [State.raise, responseWord_true_zero, afterFault]

theorem State.refuse_of_locked {s : State} {f : FaultCode} (h : s.faultCode = some f) :
    s.refuse = { s with response := some (faultWord (faultBits f)) } := by
  rw [State.refuse, responseWord_true_zero, h, fcode]

theorem execIllegal_open {s : State} (h : s.faultCode = none) : execIllegal s = .next (afterFault s .illegal) := by
  rw [execIllegal, unlessLocked_open h, State.raise_eq_afterFault]

theorem execIllegal_locked {s : State} {f : FaultCode} (h : s.faultCode = some f) :
    execIllegal s = .next { s with response := some (faultWord (faultBits f)) } := by
  rw [execIllegal, unlessLocked_locked h, State.refuse_of_locked h]

/-- Settles O4: the decoder fails exactly when no row matches, and an illegal word is refused in lockout and raises
ILLEGAL out of it. -/
theorem illegalWordsAreThoseThatMatchNoRow : Obligations.IllegalWordsAreThoseThatMatchNoRow := by
  refine ⟨fun w => ?_, fun s w rest e hp hd => ?_⟩
  · exact decode_eq_error_iff.trans ⟨fun h op _ => h op, fun h op => h op (mem_opTable op)⟩
  · rw [step_of_decode_error hp hd]
    exact ⟨fun hopen => execIllegal_open hopen, fun f hlock => execIllegal_locked hlock⟩

/-! ### The answer of a command word (30_encoding.md R84) -/

/-- `t` answers, after `s`, with the response of R84 whose `ERR` is `err` and whose `VAL` is `val`; `refusable` says
that the word is none of those that execute in lockout (R250). -/
structure Reply (refusable : Prop) (s t : State) (err : Bool) (val : Half) : Prop where
  response_eq : t.response = some (responseWord err (fcode t.faultCode) val)
  port_eq : t.port = s.port
  err_iff : err = true ↔ t.faultCode ≠ none ∧ refusable
  frame : err = true → val = 0 ∧ t = { s with faultCode := t.faultCode, response := t.response }

section Replies
variable {i : Instr} {s t u : State} {refusable : Prop}

theorem Reply.refuse (hlock : s.faultCode ≠ none) (hr : refusable) : Reply refusable s s.refuse true 0 :=
  ⟨rfl, rfl, ⟨fun _ => ⟨hlock, hr⟩, fun _ => rfl⟩, fun _ => ⟨rfl, rfl⟩⟩

theorem Reply.raise (f : FaultCode) (hr : refusable) : Reply refusable s (s.raise f) true 0 :=
  ⟨rfl, rfl, ⟨fun _ => ⟨Option.some_ne_none f, hr⟩, fun _ => rfl⟩, fun _ => ⟨rfl, rfl⟩⟩

theorem Reply.answer (v : Half) (hp : u.port = s.port) (hrun : u.faultCode = none ∨ ¬refusable) :
    Reply refusable s (u.answer v) false v := by
  refine ⟨rfl, hp, ⟨nofun, fun ⟨hf, hr⟩ => ?_⟩, nofun⟩
  exact absurd (hrun.resolve_right (not_not_intro hr)) hf

/-- A command's write raises no fault. -/
theorem StoreWrite.faultCode_eq_none (hw : StoreWrite i s u) (hopen : s.faultCode = none) : u.faultCode = none := by
  cases hw with
  | preg d v h => rw [State.setPreg_faultCode, hopen]
  | softReset h => rfl
  | nothing | buf | cw | mx => exact hopen

theorem StoreWrite.port_eq (hw : StoreWrite i s u) : u.port = s.port := by
  obtain ⟨-, -, -, -, -, hport⟩ := hw.keepsOtherStores
  exact hport

theorem Effect.reply (he : Effect i s t) : ∃ err v, Reply (executesInLockout i = false) s t err v := by
  cases he with
  | refused hlock hi => exact ⟨true, 0, .refuse hlock hi⟩
  | raised f _ hi => exact ⟨true, 0, .raise f hi⟩
  | answered v hrun hw =>
    refine ⟨false, v, .answer v hw.port_eq (hrun.imp hw.faultCode_eq_none fun hi => ?_)⟩
    simp [hi]

theorem execIllegal_reply (s : State) : ∃ t err v, execIllegal s = .next t ∧ Reply True s t err v := by
  cases hf : s.faultCode with
  | none => exact ⟨_, true, 0, unlessLocked_open hf, .raise .illegal trivial⟩
  | some f => exact ⟨_, true, 0, unlessLocked_locked hf, .refuse (by simp [hf]) trivial⟩

end Replies

/-- Every command word, legal or not, is answered. -/
theorem step_reply {s : State} {w : Word} {rest : List Word} (hp : s.port = w :: rest) :
    ∃ t err v, step s = .next t ∧
      Reply (∀ i, decode w = .ok i → executesInLockout i = false) { s with port := rest } t err v := by
  cases hd : decode w with
  | ok i =>
    obtain ⟨t, ht, he⟩ := exec_effect i { s with port := rest }
    obtain ⟨err, v, hreply⟩ := he.reply
    refine ⟨t, err, v, (step_of_decode_ok hp hd).trans ht, ?_⟩
    simpa using hreply
  | error e =>
    obtain ⟨t, err, v, ht, hreply⟩ := execIllegal_reply { s with port := rest }
    refine ⟨t, err, v, (step_of_decode_error hp hd).trans ht, ?_⟩
    simpa using hreply

/-- Settles O7: the reply of a step is a response word, whose fields are read off. -/
theorem everyCommandIsAnsweredByOneResponseWord : Obligations.EveryCommandIsAnsweredByOneResponseWord := by
  intro s w rest hp
  obtain ⟨t, err, v, hstep, hreply⟩ := step_reply hp
  obtain ⟨hhigh, hlow⟩ := responseWord_zeros err (fcode t.faultCode) v
  refine ⟨t, _, hstep, hreply.response_eq, hreply.port_eq, hhigh, hlow, responseWord_fcode .., ?_, fun herr => ?_⟩
  · rw [responseErr, responseWord_err]
    exact hreply.err_iff
  · rw [responseErr, responseWord_err] at herr
    obtain ⟨hval, hframe⟩ := hreply.frame herr
    rw [hreply.response_eq] at hframe
    exact ⟨(responseWord_val ..).trans hval, hframe⟩

end Sys2Proof.Machine
end

section
/-! SUPPORT. The obligations of the field (41_gf.md R102 to R106). Every law rests on two facts: `EXP` lists the powers
of `xtime`, so that multiplying by a nonzero byte is iterating `xtime`; and `xtime` is additive. -/

namespace Sys2Proof.Machine

/-! ### The antilogarithm (41_gf.md R103) -/

/-- The antilogarithm depends on its argument modulo 255 only. -/
theorem gfExp_congr {m n : Int} (h : m % 255 = n % 255) : gfExp m = gfExp n := by rw [gfExp, gfExp, h]

theorem expTable_eq_iterate_xtime {i : Nat} (h : i < 255) : expTable i = xtime^[i] 1#8 := by
  induction i with
  | zero => rfl
  | succ i ih => rw [expTable_succ i (by omega), ih (by omega), Function.iterate_succ_apply']

/-- `EXP` lists the powers of the generator. -/
theorem gfExp_eq_iterate_xtime (n : Int) : gfExp n = xtime^[(n % 255).toNat] 1#8 :=
  expTable_eq_iterate_xtime (mod_255_lt n)

/-- `xtime` is one step along `EXP`; from the last entry it leads back to the first. -/
theorem xtime_gfExp (n : Int) : xtime (gfExp n) = gfExp (n + 1) := by
  unfold gfExp
  by_cases hlast : (n % 255).toNat = 254
  · rw [hlast, show ((n + 1) % 255).toNat = 0 by omega]
    rfl
  · have hlt := mod_255_lt n
    rw [← expTable_succ _ (by omega), show ((n + 1) % 255).toNat = (n % 255).toNat + 1 by omega]

theorem iterate_xtime_gfExp (k : Nat) (n : Int) : xtime^[k] (gfExp n) = gfExp (n + k) := by
  induction k with
  | zero => simp
  | succ k ih => rw [Function.iterate_succ_apply', ih, xtime_gfExp, Nat.cast_succ, add_assoc]

/-- `LOG` inverts the antilogarithm modulo 255. -/
theorem logOf_gfExp (n : Int) : (logOf (gfExp n) : Int) = n % 255 := by
  rw [gfExp, logOf_eq_of_gfLog (gfLog_expTable _ (mod_255_lt n))]
  omega

theorem gfLog_eq_some_logOf {a : Byte} (h : a ≠ 0#8) : gfLog a = some (logOf a) := by
  simp [logOf, gfLog, h]

theorem gfLog_zero : gfLog 0#8 = none := if_pos rfl

theorem ne_zero_of_gfLog {a : Byte} {l : Nat} (h : gfLog a = some l) : a ≠ 0#8 := by
  rintro rfl
  cases gfLog_zero.symm.trans h

/-! ### `xtime` is additive -/

/-- What `xtime` adds after its shift, from the bit shifted out. -/
def feedback (top : Bool) : Byte := if top then 0x1D#8 else 0#8

theorem feedback_xor : ∀ x y : Bool, feedback (x ^^ y) = feedback x ^^^ feedback y := by decide

theorem xtime_eq_shift_xor_feedback (v : Byte) : xtime v = v <<< 1 ^^^ feedback (v.getLsbD 7) := by
  unfold xtime feedback
  cases v.getLsbD 7 with
  | true => rfl
  | false => exact BitVec.xor_zero.symm

/-- `xtime` is additive, since the shift and the feedback are. -/
theorem xtime_xor (a b : Byte) : xtime (a ^^^ b) = xtime a ^^^ xtime b := by
  simp only [xtime_eq_shift_xor_feedback, BitVec.shiftLeft_xor_distrib, BitVec.getLsbD_xor, feedback_xor]
  ac_rfl

theorem iterate_xtime_xor (k : Nat) (a b : Byte) : xtime^[k] (a ^^^ b) = xtime^[k] a ^^^ xtime^[k] b := by
  induction k with
  | zero => rfl
  | succ k ih => simp only [Function.iterate_succ_apply', ih, xtime_xor]

/-! ### The product (41_gf.md R104, R106) -/

theorem gmul_comm (a b : Byte) : gmul a b = gmul b a := by
  simp only [gmul, or_comm, add_comm]

/-- Powers are multiplied by adding their exponents. -/
theorem gmul_gfExp (m n : Int) : gmul (gfExp m) (gfExp n) = gfExp (m + n) := by
  rw [gmul_of_ne_zero (gfExp_ne_zero m) (gfExp_ne_zero n), logOf_gfExp, logOf_gfExp]
  exact gfExp_congr (Int.add_emod m n 255).symm

/-- To multiply by a nonzero byte is to apply `xtime` as often as its logarithm says. -/
theorem gmul_eq_iterate_xtime {a : Byte} (ha : a ≠ 0#8) (b : Byte) : gmul a b = xtime^[logOf a] b := by
  by_cases hb : b = 0#8
  · rw [hb, gmul_zero_right, Function.iterate_fixed rfl]
  · calc gmul a b = gfExp (logOf b + logOf a) := by rw [gmul_of_ne_zero ha hb, add_comm]
      _ = xtime^[logOf a] b := by rw [← iterate_xtime_gfExp, gfExp_logOf hb]

theorem gmul_xor (a b c : Byte) : gmul a (b ^^^ c) = gmul a b ^^^ gmul a c := by
  by_cases ha : a = 0#8
  · simp [ha, gmul_zero_left]
  · simp only [gmul_eq_iterate_xtime ha, iterate_xtime_xor]

theorem gmul_one (a : Byte) : gmul a 1#8 = a := by
  by_cases ha : a = 0#8
  · rw [ha, gmul_zero_left]
  · calc gmul a 1#8 = gmul (gfExp (logOf a)) (gfExp 0) := by rw [gfExp_logOf ha]; rfl
      _ = a := by rw [gmul_gfExp, add_zero, gfExp_logOf ha]

theorem gmul_assoc (a b c : Byte) : gmul (gmul a b) c = gmul a (gmul b c) := by
  by_cases ha : a = 0#8
  · simp only [ha, gmul_zero_left]
  by_cases hb : b = 0#8
  · simp only [hb, gmul_zero_left, gmul_zero_right]
  by_cases hc : c = 0#8
  · simp only [hc, gmul_zero_right]
  rw [← gfExp_logOf ha, ← gfExp_logOf hb, ← gfExp_logOf hc]
  simp only [gmul_gfExp, add_assoc]

theorem gmul_two (v : Byte) : gmul 2#8 v = xtime v := gmul_eq_iterate_xtime (by decide) v

theorem gmul_iterate_xtime (a : Byte) (k : Nat) (v : Byte) : gmul a (xtime^[k] v) = xtime^[k] (gmul a v) := by
  have hcomm : Function.Commute (gmul a) xtime := fun v => by
    rw [← gmul_two, ← gmul_two, ← gmul_assoc, ← gmul_assoc, gmul_comm a]
  exact hcomm.iterate_right k v

/-- The exponents of a byte and of its inverse add up to 0. -/
theorem gmul_gfExp_neg_logOf {a : Byte} (ha : a ≠ 0#8) : gmul a (gfExp (-(logOf a : Int))) = 1#8 := by
  calc gmul a (gfExp (-(logOf a : Int))) = gmul (gfExp (logOf a)) (gfExp (-(logOf a : Int))) := by rw [gfExp_logOf ha]
    _ = gfExp 0 := by rw [gmul_gfExp, add_neg_cancel]
    _ = 1#8 := rfl

theorem gmul_gfExp_sub_logOf {a b : Byte} (ha : a ≠ 0#8) (hb : b ≠ 0#8) :
    gmul (gfExp ((logOf a : Int) - (logOf b : Int))) b = a := by
  calc gmul (gfExp ((logOf a : Int) - (logOf b : Int))) b
      = gmul (gfExp ((logOf a : Int) - (logOf b : Int))) (gfExp (logOf b)) := by rw [gfExp_logOf hb]
    _ = a := by rw [gmul_gfExp, sub_add_cancel, gfExp_logOf ha]

/-! ### Shift-and-add multiplication (41_gf.md R106 (c), (d)) -/

/-- A byte is the sum of the powers of the generator that its bits name. -/
theorem bitMul_one : ∀ b : Byte, bitMul 1#8 b = b := by decide +kernel

/-- The product goes through the sum that shift-and-add computes. -/
theorem gmul_bitMul (a c b : Byte) : gmul a (bitMul c b) = bitMul (gmul a c) b := by
  rw [bitMul, ← List.foldl_hom (gmul a), show gmul a 0 = 0 from gmul_zero_right a]
  · rfl
  · intro acc k
    rw [apply_ite (gmul a), gmul_xor, gmul_iterate_xtime]

/-! ### The answers of the field commands -/

theorem responseWord_false_zero (v : Half) : responseWord false 0 v = okWord v := rfl

/-- Out of lockout a successful command's response is R84's `0x0000vvvv`. -/
theorem State.answer_of_open {s : State} (h : s.faultCode = none) (v : Half) :
    s.answer v = { s with response := some (okWord v) } := by
  rw [State.answer, h, fcode, responseWord_false_zero]

theorem unlessLocked_answer_of_open {s : State} (h : s.faultCode = none) (v : Half) :
    unlessLocked s (s.answer v) = .next { s with response := some (okWord v) } := by
  rw [unlessLocked_open h, State.answer_of_open h]

theorem exec_gflog_of_gfLog {a : Byte} {l : Nat} {s : State} (h : s.faultCode = none) (hl : gfLog a = some l) :
    exec (.gflog a) s = .next { s with response := some (okWord (BitVec.ofNat 16 l)) } := by
  rw [exec, execGflog, hl]
  exact unlessLocked_answer_of_open h _

theorem exec_gflog_zero {s : State} (h : s.faultCode = none) : exec (.gflog 0#8) s = .next (afterFault s .domain) := by
  rw [← State.raise_eq_afterFault]
  exact unlessLocked_open h

theorem exec_gfexp_open {s : State} (h : s.faultCode = none) (n : Half) :
    exec (.gfexp n) s = .next { s with response := some (okWord ((gfExp n.toInt).setWidth 16)) } :=
  unlessLocked_answer_of_open h _

theorem exec_gfmul_open {s : State} (h : s.faultCode = none) (a b : Byte) :
    exec (.gfmul a b) s = .next { s with response := some (okWord ((gmul a b).setWidth 16)) } :=
  unlessLocked_answer_of_open h _

theorem exec_gfadd_open {s : State} (h : s.faultCode = none) (a b : Byte) :
    exec (.gfadd a b) s = .next { s with response := some (okWord ((a ^^^ b).setWidth 16)) } :=
  unlessLocked_answer_of_open h _

/-! ### The obligations -/

/-- Settles O19: `EXP` lists the powers of `xtime`. -/
theorem gfexpAnswersThePowerOfTheGenerator : Obligations.GfexpAnswersThePowerOfTheGenerator := by
  refine ⟨fun n => decodeOfEncodeIsTheCommand (.gfexp n) rfl, fun n s hopen => ?_,
    fun n => ⟨gfExp_eq_iterate_xtime n, gfExp_ne_zero n⟩⟩
  rw [exec_gfexp_open hopen, gfExp_eq_iterate_xtime]

/-- Settles O22: products of nonzero bytes are sums of logarithms, and the laws of addition carry over; the distributive
law holds because multiplying by a nonzero byte iterates the additive `xtime`. -/
theorem fieldLawsOfTheTables : Obligations.FieldLawsOfTheTables :=
  ⟨fun _ ha => gfExp_logOf ha, logOf_gfExp, fun m n => (gmul_gfExp m n).symm, gfExp_add_255, gmul_two, gmul_comm,
    gmul_assoc, gmul_one, gmul_zero_right, gmul_xor,
    fun _ ha => ⟨gfExp_congr (by omega), gmul_gfExp_neg_logOf ha⟩, fun _ _ ha hb => gmul_gfExp_sub_logOf ha hb⟩

/-- Settles O18: the logarithm is `LOG`'s entry; 0 has none and raises DOMAIN. -/
theorem gflogAnswersTheLogarithmOrDomain : Obligations.GflogAnswersTheLogarithmOrDomain := by
  refine ⟨fun a => decodeOfEncodeIsTheCommand (.gflog a) rfl, fun a s hopen ha => ?_,
    fun s hopen => exec_gflog_zero hopen, by decide⟩
  exact ⟨logOf a, Nat.le_of_lt_succ (logOf_lt a), gfExp_logOf ha,
    exec_gflog_of_gfLog hopen (gfLog_eq_some_logOf ha)⟩

/-- Settles O20: the product is 0 when an operand is, and the antilogarithm of the summed logarithms otherwise. -/
theorem gfmulAndGfaddAnswerProductAndSum : Obligations.GfmulAndGfaddAnswerProductAndSum := by
  refine ⟨fun a b => decodeOfEncodeIsTheCommand (.gfmul a b) rfl,
    fun a b => decodeOfEncodeIsTheCommand (.gfadd a b) rfl,
    fun a b s hopen => ⟨fun hzero => ?_, fun la lb hla hlb => ?_, exec_gfadd_open hopen a b⟩,
    fun a b ha hb => ⟨logOf a, logOf b, gfLog_eq_some_logOf ha, gfLog_eq_some_logOf hb⟩⟩
  · have hmul : gmul a b = 0#8 := if_pos hzero
    rw [exec_gfmul_open hopen, hmul]
    rfl
  · rw [exec_gfmul_open hopen, gmul_of_ne_zero (ne_zero_of_gfLog hla) (ne_zero_of_gfLog hlb), logOf_eq_of_gfLog hla,
      logOf_eq_of_gfLog hlb]

/-- Settles O21: `b` is the sum of the powers its bits name, and `gmul a` goes through that sum. -/
theorem gmulIsMultiplicationModulo0x11D : Obligations.GmulIsMultiplicationModulo0x11D := by
  intro a b
  calc gmul a b = gmul a (bitMul 1#8 b) := by rw [bitMul_one]
    _ = bitMul (gmul a 1#8) b := gmul_bitMul a 1#8 b
    _ = bitMul a b := by rw [gmul_one]

end Sys2Proof.Machine
end

section
/-! SUPPORT. The obligations of the polynomial commands (42_poly.md R125 to R133) and of the three counts (R128, R156,
R217). Out of lockout a command answers, writes one register and answers its length, or raises one fault. -/

namespace Sys2Proof.Machine

/-! ### The words of the polynomial commands (30_encoding.md R81, R86) -/

theorem encode_pclr (pd : PReg) : encode (.pclr pd) = 0x20#8 ++ pregBits pd ++ 0#22 := by
  cases pd <;> rfl

theorem encode_ppush (pd : PReg) (c : Byte) : encode (.ppush pd c) = 0x21#8 ++ pregBits pd ++ 0#14 ++ c := by
  have happ := (BitVec.append_assoc (x₁ := 0x21#8 ++ pregBits pd ++ 0#2 ++ 0#2 ++ 0#2) (x₂ := 0#8) (x₃ := c)).symm
  refine happ.trans ?_
  cases pd <;> rfl

theorem encode_pshl (pd : PReg) (sh : Half) : encode (.pshl pd sh) = 0x22#8 ++ pregBits pd ++ 0#6 ++ sh := by
  cases pd <;> rfl

theorem encode_plen (pa : PReg) : encode (.plen pa) = 0x23#8 ++ 0#2 ++ pregBits pa ++ 0#20 := by
  cases pa <;> rfl

theorem encode_pget (pa : PReg) (idx : Half) : encode (.pget pa idx) = 0x24#8 ++ 0#2 ++ pregBits pa ++ 0#4 ++ idx := by
  cases pa <;> rfl

theorem encode_pmul (pd pa pb : PReg) :
    encode (.pmul pd pa pb) = 0x25#8 ++ pregBits pd ++ pregBits pa ++ pregBits pb ++ 0#18 := BitVec.append_assoc

theorem encode_pmod (pd pa pb : PReg) :
    encode (.pmod pd pa pb) = 0x26#8 ++ pregBits pd ++ pregBits pa ++ pregBits pb ++ 0#18 := BitVec.append_assoc

theorem encode_pgen (pd : PReg) (k : Half) : encode (.pgen pd k) = 0x27#8 ++ pregBits pd ++ 0#6 ++ k := by
  cases pd <;> rfl

/-- A word that is a well-formed command's decodes to it. -/
theorem decode_of_encode_eq {i : Instr} {w : Word} (hw : encode i = w) (hi : i.wellFormed = true) : decode w = .ok i :=
  hw ▸ decodeOfEncodeIsTheCommand i hi

/-! ### Pushing onto a trimmed sequence (00_scope.md R13) -/

/-- Trimming the front part beforehand changes nothing. -/
theorem trim_trim_append (p q : List Byte) : trim (trim p ++ q) = trim (p ++ q) := by
  induction p with
  | nil => rfl
  | cons c p ih =>
    by_cases hc : c = 0#8
    · subst hc
      rw [trim_zero_cons, ih, List.cons_append, trim_zero_cons]
    · rw [trim_cons_of_ne hc]

theorem length_trim_le_append (p q : List Byte) : (trim p).length ≤ (trim (p ++ q)).length := by
  rw [← trim_trim_append]
  by_cases hnil : trim p = []
  · simp [hnil]
  · rw [trim_eq_self (normalForm_append (trim_normal p) hnil q), List.length_append]
    exact Nat.le_add_right _ _

/-- A normal form stays one when a coefficient is appended that is no leading zero. -/
theorem normalForm_concat {p : List Byte} (hp : NormalForm p) {c : Byte} (hc : ¬(p = [] ∧ c = 0#8)) :
    NormalForm (p ++ [c]) := by
  by_cases hnil : p = []
  · subst hnil
    exact .inr fun hzero => hc ⟨rfl, hzero⟩
  · exact normalForm_append hp hnil _

/-- The response is no polynomial register. -/
theorem State.preg_withResponse (s : State) (r : Option Word) (d : PReg) :
    ({ s with response := r } : State).preg d = s.preg d := by
  cases d <;> rfl

/-! ### Out of lockout -/

section Open
variable {s : State}

/-- A command whose check passes runs. -/
theorem unlessLocked_require_of_open (hopen : s.faultCode = none) {c : Prop} [Decidable c] (hc : c) (f : FaultCode)
    (t : State) : unlessLocked s (s.require c f t) = .next t := by
  rw [unlessLocked_open hopen, State.require_pos hc]

/-- A command whose check fails raises its fault. -/
theorem unlessLocked_require_fault (hopen : s.faultCode = none) {c : Prop} [Decidable c] (hc : ¬c) (f : FaultCode)
    (t : State) : unlessLocked s (s.require c f t) = .next (afterFault s f) := by
  rw [unlessLocked_open hopen, State.require_neg hc, State.raise_eq_afterFault]

/-- What a command leaves that writes a register and answers. -/
theorem State.answer_setPreg_of_open (hopen : s.faultCode = none) (d : PReg) (v : List Byte) (x : Half) :
    (s.setPreg d v).answer x = { s.setPreg d v with response := some (okWord x) } :=
  State.answer_of_open ((s.setPreg_faultCode d v).trans hopen) x

theorem State.putPoly_of_open (hopen : s.faultCode = none) (d : PReg) (v : List Byte) :
    s.putPoly d v = { s.setPreg d v with response := some (okWord (BitVec.ofNat 16 v.length)) } :=
  State.answer_setPreg_of_open hopen d v _

theorem exec_pclr_open (hopen : s.faultCode = none) (pd : PReg) :
    exec (.pclr pd) s = .next { s.setPreg pd [] with response := some (okWord 0#16) } :=
  (unlessLocked_open hopen).trans (congrArg _ (State.answer_setPreg_of_open hopen pd [] _))

theorem exec_ppush_leading_zero (hopen : s.faultCode = none) {pd : PReg} (hnil : s.preg pd = []) :
    exec (.ppush pd 0#8) s = .next { s with response := some (okWord 0#16) } :=
  (congrArg (unlessLocked s) (if_pos ⟨hnil, rfl⟩)).trans (unlessLocked_answer_of_open hopen _)

theorem exec_ppush_append (hopen : s.faultCode = none) {pd : PReg} {c : Byte} (hc : ¬(s.preg pd = [] ∧ c = 0#8))
    (hroom : (s.preg pd).length < s.cfg.polyMax) :
    exec (.ppush pd c) s = .next { s.setPreg pd (s.preg pd ++ [c]) with
      response := some (okWord (BitVec.ofNat 16 ((s.preg pd).length + 1))) } := by
  refine (congrArg (unlessLocked s) (if_neg hc)).trans ?_
  rw [unlessLocked_require_of_open hopen hroom, State.putPoly_of_open hopen,
    List.length_append, List.length_singleton]

theorem exec_ppush_full (hopen : s.faultCode = none) {pd : PReg} {c : Byte} (hc : ¬(s.preg pd = [] ∧ c = 0#8))
    (hfull : s.cfg.polyMax ≤ (s.preg pd).length) : exec (.ppush pd c) s = .next (afterFault s .polyovf) :=
  (congrArg (unlessLocked s) (if_neg hc)).trans (unlessLocked_require_fault hopen hfull.not_gt _ _)

theorem exec_pshl_of_nil_or_zero (hopen : s.faultCode = none) {pd : PReg} {sh : Half}
    (h : s.preg pd = [] ∨ sh = 0#16) :
    exec (.pshl pd sh) s = .next { s with response := some (okWord (BitVec.ofNat 16 (s.preg pd).length)) } :=
  (congrArg (unlessLocked s) (if_pos h)).trans (unlessLocked_answer_of_open hopen _)

theorem exec_pshl_append (hopen : s.faultCode = none) {pd : PReg} {sh : Half} (h : ¬(s.preg pd = [] ∨ sh = 0#16))
    (hroom : (s.preg pd).length + sh.toNat ≤ s.cfg.polyMax) :
    exec (.pshl pd sh) s = .next { s.setPreg pd (s.preg pd ++ List.replicate sh.toNat 0#8) with
      response := some (okWord (BitVec.ofNat 16 ((s.preg pd).length + sh.toNat))) } := by
  refine (congrArg (unlessLocked s) (if_neg h)).trans ?_
  rw [unlessLocked_require_of_open hopen hroom, State.putPoly_of_open hopen,
    List.length_append, List.length_replicate]
  rfl

theorem exec_pshl_overflow (hopen : s.faultCode = none) {pd : PReg} {sh : Half} (h : ¬(s.preg pd = [] ∨ sh = 0#16))
    (hover : s.cfg.polyMax < (s.preg pd).length + sh.toNat) :
    exec (.pshl pd sh) s = .next (afterFault s .polyovf) :=
  (congrArg (unlessLocked s) (if_neg h)).trans (unlessLocked_require_fault hopen hover.not_ge _ _)

theorem exec_plen_open (hopen : s.faultCode = none) (pa : PReg) :
    exec (.plen pa) s = .next { s with response := some (okWord (BitVec.ofNat 16 (s.preg pa).length)) } :=
  unlessLocked_answer_of_open hopen _

theorem exec_bcnt_open (hopen : s.faultCode = none) :
    exec .bcnt s = .next { s with response := some (okWord (BitVec.ofNat 16 s.count)) } :=
  unlessLocked_answer_of_open hopen _

theorem exec_mxsize_open (hopen : s.faultCode = none) :
    exec .mxsize s = .next { s with response := some (okWord (BitVec.ofNat 16 s.cfg.n)) } :=
  unlessLocked_answer_of_open hopen _

theorem exec_pget_of_getElem? (hopen : s.faultCode = none) {pa : PReg} {idx : Half} {c : Byte}
    (hget : (s.preg pa)[idx.toNat]? = some c) :
    exec (.pget pa idx) s = .next { s with response := some (okWord (c.setWidth 16)) } := by
  obtain ⟨hidx, -⟩ := List.getElem?_eq_some_iff.mp hget
  rw [exec, execPget, unlessLocked_require_of_open hopen hidx, State.answer_of_open hopen, List.getD, hget]
  rfl

theorem exec_pget_index (hopen : s.faultCode = none) {pa : PReg} {idx : Half} (hget : (s.preg pa)[idx.toNat]? = none) :
    exec (.pget pa idx) s = .next (afterFault s .index) :=
  unlessLocked_require_fault hopen (List.getElem?_eq_none_iff.mp hget).not_gt _ _

theorem exec_pmul_open (hopen : s.faultCode = none) {pa pb : PReg} (pd : PReg)
    (hroom : s.preg pa = [] ∨ s.preg pb = [] ∨ (s.preg pa).length + (s.preg pb).length - 1 ≤ s.cfg.polyMax) :
    exec (.pmul pd pa pb) s = .next { s.setPreg pd (polyMul (s.preg pa) (s.preg pb)) with
      response := some (okWord (BitVec.ofNat 16 (polyMul (s.preg pa) (s.preg pb)).length)) } := by
  rw [exec, execPmul, unlessLocked_require_of_open hopen hroom, State.putPoly_of_open hopen]

theorem exec_pmul_overflow (hopen : s.faultCode = none) {pa pb : PReg} (pd : PReg) (ha : s.preg pa ≠ [])
    (hb : s.preg pb ≠ []) (hover : s.cfg.polyMax < (s.preg pa).length + (s.preg pb).length - 1) :
    exec (.pmul pd pa pb) s = .next (afterFault s .polyovf) :=
  unlessLocked_require_fault hopen (not_or.mpr ⟨ha, not_or.mpr ⟨hb, hover.not_ge⟩⟩) _ _

theorem exec_pmod_open (hopen : s.faultCode = none) (pd pa : PReg) {pb : PReg} (hne : s.preg pb ≠ []) :
    exec (.pmod pd pa pb) s = .next { s.setPreg pd (polyMod (s.preg pa) (s.preg pb)) with
      response := some (okWord (BitVec.ofNat 16 (polyMod (s.preg pa) (s.preg pb)).length)) } := by
  rw [exec, execPmod, unlessLocked_require_of_open hopen hne, State.putPoly_of_open hopen]

theorem exec_pmod_divzero (hopen : s.faultCode = none) (pd pa : PReg) {pb : PReg} (hnil : s.preg pb = []) :
    exec (.pmod pd pa pb) s = .next (afterFault s .divzero) :=
  unlessLocked_require_fault hopen (not_not.mpr hnil) _ _

theorem exec_pgen_open (hopen : s.faultCode = none) (pd : PReg) {k : Half} (hroom : k.toNat + 1 ≤ s.cfg.polyMax) :
    exec (.pgen pd k) s = .next { s.setPreg pd (genPoly k.toNat) with
      response := some (okWord (BitVec.ofNat 16 (k.toNat + 1))) } := by
  rw [exec, execPgen, unlessLocked_require_of_open hopen hroom, State.answer_setPreg_of_open hopen]
  rfl

theorem exec_pgen_overflow (hopen : s.faultCode = none) (pd : PReg) {k : Half} (hover : s.cfg.polyMax < k.toNat + 1) :
    exec (.pgen pd k) s = .next (afterFault s .polyovf) :=
  unlessLocked_require_fault hopen hover.not_ge _ _

/-! ### PSET (30_encoding.md R91) -/

/-- A host goes on after a response with `ERR = 0`. -/
theorem hostRun_cons_of_ok {i : Instr} {t : State} {v : Half} (hexec : exec i s = .next t)
    (hresp : t.response = some (okWord v)) (rest : List Instr) :
    hostRun (i :: rest) s = (okWord v :: (hostRun rest t).1, (hostRun rest t).2) := by
  have hok : responseErr (okWord v) = false := responseWord_err false 0 v
  simp [hostRun, hexec, hresp, hok]

/-- Out of lockout, a push onto a normal form leaves the trimmed continuation of it when that fits. -/
theorem exec_ppush_of_normal (hopen : s.faultCode = none) {pd : PReg} (hnf : NormalForm (s.preg pd)) {c : Byte}
    (hroom : (trim (s.preg pd ++ [c])).length ≤ s.cfg.polyMax) :
    ∃ t v, exec (.ppush pd c) s = .next t ∧ t.response = some (okWord v) ∧ t.faultCode = none ∧ t.cfg = s.cfg ∧
      t.preg pd = trim (s.preg pd ++ [c]) := by
  by_cases hc : s.preg pd = [] ∧ c = 0#8
  · obtain ⟨hnil, rfl⟩ := hc
    refine ⟨_, _, exec_ppush_leading_zero hopen hnil, rfl, hopen, rfl, ?_⟩
    rw [State.preg_withResponse, hnil]
    rfl
  · have hself : trim (s.preg pd ++ [c]) = s.preg pd ++ [c] := trim_eq_self (normalForm_concat hnf hc)
    rw [hself] at hroom ⊢
    refine ⟨_, _, exec_ppush_append hopen hc (by simpa using hroom), rfl, ?_, ?_, ?_⟩
    · exact (s.setPreg_faultCode pd _).trans hopen
    · exact s.setPreg_cfg pd _
    · rw [State.preg_withResponse, State.preg_setPreg_self]

end Open

/-- `PPUSH`es out of lockout onto a normal form leave the trimmed continuation of it: each keeps the register trimmed,
and trimming the front part beforehand changes nothing. -/
theorem hostRun_ppush (pd : PReg) (cs : List Byte) (s : State) (hopen : s.faultCode = none)
    (hnf : NormalForm (s.preg pd)) (hroom : (trim (s.preg pd ++ cs)).length ≤ s.cfg.polyMax) :
    (hostRun (cs.map (Instr.ppush pd)) s).2.preg pd = trim (s.preg pd ++ cs) ∧
      (hostRun (cs.map (Instr.ppush pd)) s).2.faultCode = none ∧
      (hostRun (cs.map (Instr.ppush pd)) s).1.length = cs.length := by
  induction cs generalizing s with
  | nil => exact ⟨by rw [List.append_nil, trim_eq_self hnf]; rfl, hopen, rfl⟩
  | cons c cs ih =>
    have hsplit : s.preg pd ++ c :: cs = s.preg pd ++ [c] ++ cs := by simp
    rw [hsplit, ← trim_trim_append] at hroom ⊢
    obtain ⟨t, v, hexec, hresp, hopen', hcfg, hpreg⟩ :=
      exec_ppush_of_normal hopen hnf ((length_trim_le_append _ cs).trans (by rwa [trim_trim_append] at hroom))
    rw [← hpreg, ← hcfg] at hroom
    obtain ⟨hp, hf, hlen⟩ := ih t hopen' (hpreg ▸ trim_normal _) hroom
    rw [List.map_cons, hostRun_cons_of_ok hexec hresp, ← hpreg]
    exact ⟨hp, hf, congrArg (· + 1) hlen⟩

/-! ### The counts fit a response (43_bitbuf.md R156, 46_matrix.md R217) -/

/-- Under valid parameters the counts fit 16 bits: a register holds at most `POLY_MAX` coefficients and the buffer's
bits fit the matrix (R8, R10). -/
theorem State.Inv.counts_lt {s : State} (h : s.Inv) :
    (∀ pa, (s.preg pa).length < 65536) ∧ s.count < 65536 ∧ s.cfg.n < 65536 := by
  obtain ⟨-, -, hn, -, -, havail, -, -, -, -, -, hpoly⟩ := h.valid
  obtain ⟨-, hcount, -⟩ := h.bufInv
  refine ⟨fun pa => ?_, ?_, by omega⟩
  · obtain ⟨hlen, -⟩ := h.polyOk_preg pa
    omega
  · have hsq : s.cfg.n * s.cfg.n ≤ 255 * 255 := Nat.mul_le_mul hn hn
    have : s.cfg.dataCount ≤ s.cfg.totalCount := Nat.le_add_right _ _
    have : s.cfg.avail ≤ s.cfg.n * s.cfg.n := (Nat.sub_le _ _).trans (Nat.sub_le _ _)
    omega

/-! ### The obligations -/

/-- Settles O24: PCLR checks nothing but lockout. -/
theorem pclrEmptiesTheRegister : Obligations.PclrEmptiesTheRegister :=
  ⟨fun pd => decode_of_encode_eq (encode_pclr pd) rfl, fun pd _ hopen => exec_pclr_open hopen pd⟩

/-- Settles O25: the leading zero is looked at before the room left. -/
theorem ppushAppendsOneCoefficient : Obligations.PpushAppendsOneCoefficient := by
  refine ⟨fun pd c => decode_of_encode_eq (encode_ppush pd c) rfl, fun pd c s hopen => ⟨?_, ?_, ?_⟩⟩
  · rintro hnil rfl
    exact exec_ppush_leading_zero hopen hnil
  · exact exec_ppush_append hopen
  · exact exec_ppush_full hopen

/-- Settles O26: PCLR leaves the empty normal form, and the pushes its trimmed continuation. -/
theorem psetLeavesTheTrimmedSequence : Obligations.PsetLeavesTheTrimmedSequence := by
  intro pd cs s hopen hroom
  have hnil : ({ s.setPreg pd [] with response := some (okWord 0#16) } : State).preg pd = [] := by
    rw [State.preg_withResponse, State.preg_setPreg_self]
  obtain ⟨hp, hf, hlen⟩ := hostRun_ppush pd cs { s.setPreg pd [] with response := some (okWord 0#16) }
    ((s.setPreg_faultCode pd []).trans hopen) (.inl hnil) (by rwa [hnil, List.nil_append, State.setPreg_cfg])
  rw [hnil] at hp
  rw [hostPset, hostRun_cons_of_ok (exec_pclr_open hopen pd) rfl]
  exact ⟨hp, hf, congrArg (· + 1) hlen⟩

/-- Settles O27: an empty register and a shift by 0 are looked at before the room left. -/
theorem pshlAppendsZeros : Obligations.PshlAppendsZeros :=
  ⟨fun pd sh => decode_of_encode_eq (encode_pshl pd sh) rfl, fun _ _ _ hopen =>
    ⟨exec_pshl_of_nil_or_zero hopen, fun hne hsh => exec_pshl_append hopen (not_or.mpr ⟨hne, hsh⟩),
      fun hne hsh => exec_pshl_overflow hopen (not_or.mpr ⟨hne, hsh⟩)⟩⟩

/-- Settles O28: the index has a coefficient exactly when PGET's check passes. -/
theorem pgetAnswersTheCoefficientOrIndex : Obligations.PgetAnswersTheCoefficientOrIndex :=
  ⟨fun pa idx => decode_of_encode_eq (encode_pget pa idx) rfl,
    fun _ _ _ hopen => ⟨fun _ => exec_pget_of_getElem? hopen, exec_pget_index hopen⟩⟩

/-- Settles O30: both sources are read from the state before the command. -/
theorem pmulWritesTheProduct : Obligations.PmulWritesTheProduct :=
  ⟨fun pd pa pb => decode_of_encode_eq (encode_pmul pd pa pb) rfl,
    fun pd _ _ _ hopen => ⟨exec_pmul_open hopen pd, exec_pmul_overflow hopen pd⟩⟩

/-- Settles O31: both sources are read from the state before the command. -/
theorem pmodWritesTheRemainder : Obligations.PmodWritesTheRemainder :=
  ⟨fun pd pa pb => decode_of_encode_eq (encode_pmod pd pa pb) rfl,
    fun pd pa _ _ hopen => ⟨exec_pmod_open hopen pd pa, exec_pmod_divzero hopen pd pa⟩⟩

/-- Settles O35: PGEN's only check is the one on the degree. -/
theorem pgenLoadsTheGeneratorPolynomial : Obligations.PgenLoadsTheGeneratorPolynomial :=
  ⟨fun pd k => decode_of_encode_eq (encode_pgen pd k) rfl,
    fun pd _ _ hopen => ⟨exec_pgen_open hopen pd, exec_pgen_overflow hopen pd⟩, rfl, fun _ => rfl⟩

/-- Settles O52: the three counts check nothing but lockout, and the invariant bounds them. -/
theorem plenBcntAndMxsizeAnswerTheirCounts : Obligations.PlenBcntAndMxsizeAnswerTheirCounts :=
  ⟨fun pa => decode_of_encode_eq (encode_plen pa) rfl, rfl, rfl,
    fun _ hopen => ⟨exec_plen_open hopen, exec_bcnt_open hopen, exec_mxsize_open hopen⟩, fun _ h => h.counts_lt⟩

end Sys2Proof.Machine
end

section
/-! SUPPORT. The obligations of the polynomial arithmetic (42_poly.md R122 to R124, R134). Coefficient sequences stand
for polynomials over a commutative ring that the bytes embed in; the machine's functions become sums and products of
polynomials, and a trimmed sequence is the only one for its polynomial. -/

namespace Sys2Proof.Machine

/-! ### The coefficients of a product (42_poly.md R122) -/

/-- The start of a sum of bytes is one more term of it. -/
theorem foldl_gadd_init (f : Nat → Byte) (ks : List Nat) (x : Byte) :
    ks.foldl (fun acc i => gadd acc (f i)) x = gadd x (ks.foldl (fun acc i => gadd acc (f i)) 0) := by
  induction ks generalizing x with
  | nil => simp [gadd]
  | cons k ks ih =>
    rw [List.foldl_cons, List.foldl_cons, ih, ih (gadd 0 (f k))]
    simp [gadd, BitVec.xor_assoc]

theorem convolution_nil (b : List Byte) (k : Nat) : convolution [] b k = 0#8 := by
  simp [convolution, gadd, gmul_zero_left, List.foldl_fixed]

theorem convolution_cons_zero (x : Byte) (xs b : List Byte) : convolution (x :: xs) b 0 = gmul x (b.getD 0 0) := by
  simp [convolution, gadd]

theorem convolution_cons_succ (x : Byte) (xs b : List Byte) (k : Nat) :
    convolution (x :: xs) b (k + 1) = gadd (gmul x (b.getD (k + 1) 0)) (convolution xs b k) := by
  rw [convolution, List.range_succ_eq_map, List.foldl_cons, foldl_gadd_init, List.foldl_map]
  simp [convolution, gadd]

/-- Place `j` of the product's loops: `r[j]` with the convolution added from offset `i` on. -/
theorem getElem?_mulRows (i : Nat) (a b r : List Byte) (j : Nat) :
    (mulRows i a b r)[j]? = r[j]?.map (fun x => if i ≤ j then gadd x (convolution a b (j - i)) else x) := by
  induction a generalizing i r with
  | nil => simp [mulRows, convolution_nil, gadd]
  | cons x xs ih =>
    rw [mulRows, ih, getElem?_xorAt, Option.map_map]
    congr 1
    funext y
    have hmap (k : Nat) : (b[k]?.map (gmul x)).getD 0#8 = gmul x (b[k]?.getD 0#8) := by
      simpa only [gmul_zero_right] using Option.getD_map (gmul x) 0#8 b[k]?
    rcases Nat.lt_trichotomy j i with hj | rfl | hj
    · simp [show ¬ i ≤ j by omega, show ¬ i + 1 ≤ j by omega]
    · simp [convolution_cons_zero, hmap]
    · obtain ⟨k, rfl⟩ : ∃ k, j = i + 1 + k := ⟨j - (i + 1), by omega⟩
      have hk : i + 1 + k - i = k + 1 := by omega
      simp [show i ≤ i + 1 + k by omega, hk, hmap, convolution_cons_succ, gadd, BitVec.xor_assoc]

/-- Settles O29: each row of the product's loops adds one term to each coefficient's convolution. -/
theorem productCoefficientsAreConvolutions : Obligations.ProductCoefficientsAreConvolutions := by
  refine fun a b => ⟨polyMul_eq_nil, fun ha hb => ⟨polyMul_length ha hb, fun k hk => ?_, polyMul_normal⟩⟩
  rw [polyMul, if_neg (not_or.mpr ⟨ha, hb⟩), getElem?_mulRows, List.getElem?_replicate_of_lt hk]
  simp [gadd]

/-! ### Scaled divisors and aligned sums (42_poly.md R123, R134) -/

/-- The divisor is scaled by products (R104). -/
theorem scaleBy_eq_map_gmul (ratio : Int) (d : List Byte) : scaleBy ratio d = d.map (gmul (gfExp ratio)) := by
  refine List.map_congr_left fun c _ => ?_
  split
  · next hc => rw [hc]; exact (gmul_zero_right _).symm
  · next hc => rw [← gfExp_logOf hc, gmul_gfExp, gfExp_logOf hc, add_comm]

theorem trim_padLeft (n : Nat) (p : List Byte) : trim (padLeft n p) = trim p := by
  rw [padLeft]
  induction n - p.length with
  | zero => rfl
  | succ k ih => rw [List.replicate_succ, List.cons_append, BitVec.ofNat_eq_ofNat, trim_zero_cons, ← ih]; rfl

theorem polyAdd_normal (p q : List Byte) : NormalForm (polyAdd p q) := trim_normal _

theorem polyAdd_length_le (p q : List Byte) : (polyAdd p q).length ≤ max p.length q.length := by
  refine (trim_length_le _).trans ?_
  rw [List.length_zipWith, padLeft_length (le_max_left _ _), padLeft_length (le_max_right _ _), min_self]

/-! ### The bytes in a commutative ring (41_gf.md R106) -/

/-- The bytes with exclusive-or and `gmul` inside a commutative ring. -/
structure ByteEmbedding (F : Type) [CommRing F] where
  val : Byte → F
  val_xor (a b : Byte) : val (a ^^^ b) = val a + val b
  val_gmul (a b : Byte) : val (gmul a b) = val a * val b
  val_one : val 1#8 = 1
  val_injective : Function.Injective val

/-- A byte as an element of the field, apart from the arithmetic modulo 256 that bytes have. -/
def GfElement : Type := Byte

/-- The bytes are themselves a commutative ring under exclusive-or and `gmul`. -/
@[reducible] def gfRing : CommRing GfElement :=
  letI : Add GfElement := ⟨fun (a b : Byte) => a ^^^ b⟩
  letI : Mul GfElement := ⟨gmul⟩
  letI : Neg GfElement := ⟨id⟩
  letI : Zero GfElement := ⟨0#8⟩
  letI : One GfElement := ⟨1#8⟩
  CommRing.ofMinimalAxioms BitVec.xor_assoc (fun _ => BitVec.zero_xor) (fun _ => BitVec.xor_self) gmul_assoc gmul_comm
    (fun a => (gmul_comm 1#8 a).trans (gmul_one a)) gmul_xor

/-- The laws below do not depend on the ring, so that it is named here only. -/
theorem exists_byteEmbedding : ∃ (F : Type) (_ : CommRing F), Nonempty (ByteEmbedding F) :=
  ⟨GfElement, gfRing,
    ⟨@ByteEmbedding.mk GfElement gfRing id (fun _ _ => rfl) (fun _ _ => rfl) rfl Function.injective_id⟩⟩

/-! ### The polynomial of a coefficient sequence (00_scope.md R13) -/

namespace ByteEmbedding

open Polynomial

variable {F : Type} [CommRing F] (e : ByteEmbedding F)

theorem val_zero : e.val 0#8 = 0 := by
  have h := e.val_xor 0#8 0#8
  rwa [BitVec.xor_self, left_eq_add] at h

include e in
/-- Every element is its own negative. -/
theorem two_eq_zero : (2 : F[X]) = 0 := by
  have h : (1 : F) + 1 = 0 := by rw [← e.val_one, ← e.val_xor, BitVec.xor_self, e.val_zero]
  rw [← one_add_one_eq_two, ← C_1, ← C_add, h, C_0]

/-- The polynomial whose coefficients are listed highest degree first. -/
noncomputable def poly : List Byte → F[X]
  | [] => 0
  | c :: cs => C (e.val c) * X ^ cs.length + poly cs

@[simp] theorem poly_nil : e.poly [] = 0 := rfl

theorem poly_cons (c : Byte) (cs : List Byte) : e.poly (c :: cs) = C (e.val c) * X ^ cs.length + e.poly cs := rfl

theorem poly_one : e.poly [1#8] = 1 := by simp [poly_cons, e.val_one]

@[simp] theorem poly_zero_cons (cs : List Byte) : e.poly (0#8 :: cs) = e.poly cs := by
  rw [poly_cons, val_zero, C_0, zero_mul, zero_add]

@[simp] theorem poly_trim (p : List Byte) : e.poly (trim p) = e.poly p := by
  induction p with
  | nil => rfl
  | cons c p ih =>
    by_cases hc : c = 0#8
    · subst hc
      rw [trim_zero_cons, poly_zero_cons, ih]
    · rw [trim_cons_of_ne hc]

theorem poly_replicate_zero_append (n : Nat) (p : List Byte) : e.poly (List.replicate n 0#8 ++ p) = e.poly p := by
  induction n with
  | zero => rfl
  | succ n ih => rw [List.replicate_succ, List.cons_append, poly_zero_cons, ih]

theorem poly_replicate_zero (n : Nat) : e.poly (List.replicate n 0#8) = 0 := by
  simpa using e.poly_replicate_zero_append n []

theorem poly_padLeft (n : Nat) (p : List Byte) : e.poly (padLeft n p) = e.poly p :=
  e.poly_replicate_zero_append _ p

/-! ### Which sequences have the same polynomial -/

theorem degree_poly_lt (p : List Byte) : (e.poly p).degree < p.length := by
  induction p with
  | nil => simp
  | cons c p ih =>
    rw [poly_cons, List.length_cons]
    refine (degree_add_le _ _).trans_lt (max_lt ?_ ?_)
    · exact (degree_C_mul_X_pow_le _ _).trans_lt (by exact_mod_cast Nat.lt_succ_self _)
    · exact ih.trans (by exact_mod_cast Nat.lt_succ_self _)

/-- Sequences of one length are determined by their polynomials. -/
theorem eq_of_poly_eq_of_length_eq {p q : List Byte} (h : e.poly p = e.poly q) (hlen : p.length = q.length) :
    p = q := by
  induction p generalizing q with
  | nil => exact (List.length_eq_zero_iff.mp hlen.symm).symm
  | cons c p ih =>
    cases q with
    | nil => cases hlen
    | cons d q =>
      have hpq : p.length = q.length := Nat.succ_injective hlen
      have hcoeff (x : Byte) (l : List Byte) : (e.poly (x :: l)).coeff l.length = e.val x := by
        rw [poly_cons, coeff_add, coeff_C_mul_X_pow, if_pos rfl, coeff_eq_zero_of_degree_lt (e.degree_poly_lt l),
          add_zero]
      have hcd : c = d := e.val_injective (by rw [← hcoeff c p, ← hcoeff d q, h, hpq])
      subst hcd
      rw [poly_cons, poly_cons, hpq, add_right_inj] at h
      rw [ih h hpq]

/-- Sequences with one polynomial are one after trimming. -/
theorem trim_eq_of_poly_eq {p q : List Byte} (h : e.poly p = e.poly q) : trim p = trim q := by
  have hpad : padLeft (max p.length q.length) p = padLeft (max p.length q.length) q := by
    apply e.eq_of_poly_eq_of_length_eq
    · rw [poly_padLeft, poly_padLeft, h]
    · rw [padLeft_length (le_max_left _ _), padLeft_length (le_max_right _ _)]
  rw [← trim_padLeft _ p, hpad, trim_padLeft]

theorem eq_of_poly_eq {p q : List Byte} (hp : NormalForm p) (hq : NormalForm q) (h : e.poly p = e.poly q) : p = q := by
  rw [← trim_eq_self hp, ← trim_eq_self hq, e.trim_eq_of_poly_eq h]

/-! ### The sum (42_poly.md R134) -/

theorem poly_zipWith_gadd {p q : List Byte} (h : p.length = q.length) :
    e.poly (List.zipWith gadd p q) = e.poly p + e.poly q := by
  induction p generalizing q with
  | nil => simp [List.length_eq_zero_iff.mp h.symm]
  | cons c p ih =>
    cases q with
    | nil => cases h
    | cons d q =>
      have hpq : p.length = q.length := Nat.succ_injective h
      rw [List.zipWith_cons_cons, poly_cons, poly_cons, poly_cons, ih hpq, List.length_zipWith, hpq, min_self,
        gadd, e.val_xor, C_add]
      ring

theorem poly_polyAdd (p q : List Byte) : e.poly (polyAdd p q) = e.poly p + e.poly q := by
  rw [polyAdd, poly_trim, poly_zipWith_gadd, poly_padLeft, poly_padLeft]
  rw [padLeft_length (le_max_left _ _), padLeft_length (le_max_right _ _)]

/-! ### The product (42_poly.md R122) -/

/-- Adding `c` at place `i`, with `m` places below it, adds `c * x^m`. -/
theorem poly_modify_gadd (c : Byte) (m : Nat) {i : Nat} {r : List Byte} (h : r.length = i + 1 + m) :
    e.poly (r.modify i (fun x => gadd x c)) = e.poly r + C (e.val c) * X ^ m := by
  induction i generalizing r with
  | zero =>
    cases r with
    | nil => rw [List.length_nil] at h; omega
    | cons x r =>
      have hr : r.length = m := by rw [List.length_cons] at h; omega
      rw [List.modify_zero_cons, poly_cons, poly_cons, gadd, e.val_xor, C_add, hr]
      ring
  | succ i ih =>
    cases r with
    | nil => rw [List.length_nil] at h; omega
    | cons x r =>
      rw [List.length_cons] at h
      rw [List.modify_succ_cons, poly_cons, poly_cons, List.length_modify, ih (by omega), add_assoc]

/-- Adding `t` with `m` places below it adds `t * x^m`. -/
theorem poly_xorAt (m : Nat) {i : Nat} {t r : List Byte} (h : r.length = i + t.length + m) :
    e.poly (xorAt i t r) = e.poly r + e.poly t * X ^ m := by
  induction t generalizing i r with
  | nil => simp [xorAt]
  | cons c t ih =>
    rw [List.length_cons] at h
    rw [xorAt, ih (by rw [List.length_modify]; omega), e.poly_modify_gadd c (t.length + m) (by omega), poly_cons]
    ring

theorem poly_map_gmul (x : Byte) (p : List Byte) : e.poly (p.map (gmul x)) = C (e.val x) * e.poly p := by
  induction p with
  | nil => simp
  | cons c p ih =>
    rw [List.map_cons, poly_cons, poly_cons, ih, e.val_gmul, C_mul, List.length_map]
    ring

theorem poly_mulRows {i m : Nat} {a b r : List Byte} (hb : b.length = m + 1) (h : r.length = i + a.length + m) :
    e.poly (mulRows i a b r) = e.poly r + e.poly a * e.poly b := by
  induction a generalizing i r with
  | nil => simp [mulRows]
  | cons x a ih =>
    rw [List.length_cons] at h
    rw [mulRows, ih (by rw [xorAt_length]; omega), e.poly_xorAt a.length (by rw [List.length_map]; omega),
      poly_map_gmul, poly_cons]
    ring

theorem poly_polyMul (a b : List Byte) : e.poly (polyMul a b) = e.poly a * e.poly b := by
  cases b with
  | nil => rw [polyMul_eq_nil (.inr rfl), poly_nil, mul_zero]
  | cons y b =>
    by_cases ha : a = []
    · rw [polyMul_eq_nil (.inl ha), ha, poly_nil, zero_mul]
    · rw [polyMul, if_neg (by simp [ha]), e.poly_mulRows (m := b.length) (by simp) (by simp), BitVec.ofNat_eq_ofNat,
        poly_replicate_zero, zero_add]

/-! ### Evaluation (42_poly.md R134 (e)) -/

theorem val_foldl_horner (p : List Byte) (x acc : Byte) :
    e.val (p.foldl (fun acc c => gadd (gmul acc x) c) acc) =
      e.val acc * e.val x ^ p.length + (e.poly p).eval (e.val x) := by
  induction p generalizing acc with
  | nil => simp
  | cons c p ih =>
    rw [List.foldl_cons, ih, gadd, e.val_xor, e.val_gmul, poly_cons, eval_add, eval_mul, eval_C, eval_pow, eval_X,
      List.length_cons]
    ring

theorem val_hornerEval (p : List Byte) (x : Byte) : e.val (hornerEval p x) = (e.poly p).eval (e.val x) := by
  rw [hornerEval, val_foldl_horner, BitVec.ofNat_eq_ofNat, val_zero, zero_mul, zero_add]

/-! ### The division (42_poly.md R123) -/

/-- A pass of the division adds a multiple of the divisor. -/
theorem exists_poly_modPass {a d : List Byte} (hlen : d.length ≤ a.length) :
    ∃ q, e.poly (modPass a d) = e.poly a + e.poly q * e.poly d := by
  obtain ⟨m, hm⟩ := Nat.exists_eq_add_of_le hlen
  refine ⟨gfExp ((logOf (a.headD 0) : Int) - (logOf (d.headD 0) : Int)) :: List.replicate m 0#8, ?_⟩
  rw [modPass, poly_trim, scaleBy_eq_map_gmul, e.poly_xorAt m (by rw [List.length_map, hm, Nat.zero_add]),
    poly_map_gmul, poly_cons, poly_replicate_zero, List.length_replicate]
  ring

/-- The division adds a multiple of the divisor. -/
theorem exists_poly_modLoop (passes : Nat) (a d : List Byte) :
    ∃ q, e.poly (modLoop passes a d) = e.poly a + e.poly q * e.poly d := by
  induction passes generalizing a with
  | zero => exact ⟨[], by simp [modLoop]⟩
  | succ n ih =>
    rw [modLoop]
    split
    · exact ⟨[], by simp⟩
    · next hlen =>
      obtain ⟨q, hq⟩ := e.exists_poly_modPass (Nat.le_of_not_lt hlen)
      obtain ⟨q', hq'⟩ := ih (modPass a d)
      exact ⟨polyAdd q q', by rw [hq', hq, poly_polyAdd]; ring⟩

/-- The dividend is a multiple of the divisor and the remainder. -/
theorem exists_quotient (a d : List Byte) : ∃ q, e.poly a = e.poly q * e.poly d + e.poly (polyMod a d) := by
  obtain ⟨q, hq⟩ := e.exists_poly_modLoop a.length a d
  refine ⟨q, ?_⟩
  rw [polyMod, hq]
  linear_combination -(e.poly q * e.poly d) * e.two_eq_zero

/-- Two remainders by `d` of one polynomial are equal: the difference of the quotients times `d` is shorter than `d`. -/
theorem remainder_unique {d q q' r r' : List Byte} (hd : NormalForm d) (hne : d ≠ []) (hr : NormalForm r)
    (hr' : NormalForm r') (hlen : r.length < d.length) (hlen' : r'.length < d.length)
    (h : e.poly q * e.poly d + e.poly r = e.poly q' * e.poly d + e.poly r') : r = r' := by
  have hdiff : polyMul (polyAdd q q') d = polyAdd r r' := by
    apply e.eq_of_poly_eq (polyMul_normal (polyAdd_normal q q') hd) (polyAdd_normal r r')
    rw [poly_polyMul, poly_polyAdd, poly_polyAdd]
    linear_combination h + (e.poly q' * e.poly d - e.poly r) * e.two_eq_zero
  have hq : polyAdd q q' = [] := by
    by_contra hqne
    have hlong := polyMul_length hqne hne
    have hshort := polyAdd_length_le r r'
    have hpos := List.length_pos_iff.mpr hqne
    rw [hdiff] at hlong
    omega
  have hzero : e.poly r + e.poly r' = 0 := by
    rw [← poly_polyAdd, ← hdiff, hq, polyMul_eq_nil (.inl rfl), poly_nil]
  apply e.eq_of_poly_eq hr hr'
  linear_combination hzero - e.poly r' * e.two_eq_zero

/-- The remainder is the only trimmed sequence shorter than the divisor that differs from the dividend by a multiple. -/
theorem eq_polyMod {a d q r : List Byte} (ha : NormalForm a) (hd : NormalForm d) (hne : d ≠ []) (hr : NormalForm r)
    (hlen : r.length < d.length) (h : e.poly a = e.poly q * e.poly d + e.poly r) : r = polyMod a d := by
  obtain ⟨q', hq'⟩ := e.exists_quotient a d
  exact e.remainder_unique hd hne hr (polyMod_normal ha hd hne) hlen (polyMod_length_lt ha hd hne) (h.symm.trans hq')

end ByteEmbedding

/-! ### The laws of the product and the remainder (42_poly.md R134 (b), (c), (d)) -/

theorem polyMul_comm (a b : List Byte) : polyMul a b = polyMul b a := by
  obtain ⟨F, _, ⟨e⟩⟩ := exists_byteEmbedding
  by_cases hnil : a = [] ∨ b = []
  · rw [polyMul_eq_nil hnil, polyMul_eq_nil hnil.symm]
  · obtain ⟨ha, hb⟩ := not_or.mp hnil
    apply e.eq_of_poly_eq_of_length_eq
    · rw [e.poly_polyMul, e.poly_polyMul, mul_comm]
    · rw [polyMul_length ha hb, polyMul_length hb ha, Nat.add_comm]

theorem polyMul_assoc {a b c : List Byte} (ha : NormalForm a) (hb : NormalForm b) (hc : NormalForm c) :
    polyMul (polyMul a b) c = polyMul a (polyMul b c) := by
  obtain ⟨F, _, ⟨e⟩⟩ := exists_byteEmbedding
  apply e.eq_of_poly_eq (polyMul_normal (polyMul_normal ha hb) hc) (polyMul_normal ha (polyMul_normal hb hc))
  simp only [e.poly_polyMul, mul_assoc]

theorem polyMul_one (a : List Byte) : polyMul a [1#8] = a := by
  obtain ⟨F, _, ⟨e⟩⟩ := exists_byteEmbedding
  by_cases ha : a = []
  · rw [ha, polyMul_eq_nil (.inl rfl)]
  · apply e.eq_of_poly_eq_of_length_eq
    · rw [e.poly_polyMul, e.poly_one, mul_one]
    · rw [polyMul_length ha (List.cons_ne_nil _ _)]
      rfl

theorem polyMod_polyMul {q d : List Byte} (hq : NormalForm q) (hd : NormalForm d) (hne : d ≠ []) :
    polyMod (polyMul q d) d = [] := by
  obtain ⟨F, _, ⟨e⟩⟩ := exists_byteEmbedding
  refine (e.eq_polyMod (q := q) (polyMul_normal hq hd) hd hne (.inl rfl) (List.length_pos_iff.mpr hne) ?_).symm
  rw [e.poly_polyMul, e.poly_nil, add_zero]

theorem polyMod_polyAdd {a b d : List Byte} (ha : NormalForm a) (hb : NormalForm b) (hd : NormalForm d)
    (hne : d ≠ []) : polyMod (polyAdd a b) d = polyAdd (polyMod a d) (polyMod b d) := by
  obtain ⟨F, _, ⟨e⟩⟩ := exists_byteEmbedding
  obtain ⟨q, hq⟩ := e.exists_quotient a d
  obtain ⟨q', hq'⟩ := e.exists_quotient b d
  have hlen : (polyAdd (polyMod a d) (polyMod b d)).length < d.length :=
    (polyAdd_length_le _ _).trans_lt (max_lt (polyMod_length_lt ha hd hne) (polyMod_length_lt hb hd hne))
  refine (e.eq_polyMod (q := polyAdd q q') (polyAdd_normal a b) hd hne (polyAdd_normal _ _) hlen ?_).symm
  rw [e.poly_polyAdd, e.poly_polyAdd, e.poly_polyAdd, hq, hq']
  ring

/-- Settles O33: in the ring of polynomials these are the laws of a commutative ring, and remainders are unique. -/
theorem polynomialLaws : Obligations.PolynomialLaws :=
  ⟨polyMul_comm, fun _ _ _ => polyMul_assoc, polyMul_one, fun _ _ => polyMod_polyMul, fun _ _ _ => polyMod_polyAdd⟩

/-- Settles O32: the quotient collects what the division's passes add, and two remainders differ by a multiple of `d`
that is shorter than `d`. -/
theorem remainderIsTheUniqueRemainder : Obligations.RemainderIsTheUniqueRemainder := by
  intro a d ha hd hne
  obtain ⟨F, _, ⟨e⟩⟩ := exists_byteEmbedding
  obtain ⟨q, hq⟩ := e.exists_quotient a d
  refine ⟨polyMod_normal ha hd hne, polyMod_length_lt ha hd hne, ⟨trim q, trim_normal q, ?_⟩,
    fun q' r _ hr hlen hsum => e.eq_polyMod (q := q') ha hd hne hr hlen ?_⟩
  · apply e.eq_of_poly_eq (polyAdd_normal _ _) ha
    rw [e.poly_polyAdd, e.poly_polyMul, e.poly_trim, hq]
  · rw [← e.poly_polyMul, ← e.poly_polyAdd, hsum]

/-! ### The generator polynomial (42_poly.md R124, R134 (e)) -/

theorem hornerEval_polyMul (p q : List Byte) (x : Byte) :
    hornerEval (polyMul p q) x = gmul (hornerEval p x) (hornerEval q x) := by
  obtain ⟨F, _, ⟨e⟩⟩ := exists_byteEmbedding
  apply e.val_injective
  rw [e.val_gmul, e.val_hornerEval, e.val_hornerEval, e.val_hornerEval, e.poly_polyMul, Polynomial.eval_mul]

theorem hornerEval_linear_self (x : Byte) : hornerEval [1#8, x] x = 0#8 := by
  have hx : gmul 1#8 x = x := (gmul_comm 1#8 x).trans (gmul_one x)
  simp [hornerEval, gadd, gmul_zero_left, hx]

theorem headD_genPoly (k : Nat) : (genPoly k).headD 0 = 1#8 := by
  induction k with
  | zero => rfl
  | succ k ih =>
    obtain ⟨x, xs, hx⟩ := List.exists_cons_of_ne_nil (genPoly_ne_nil k)
    rw [hx, List.headD_cons] at ih
    rw [genPoly, hx, headD_polyMul_cons, ih]
    exact gmul_one 1#8

theorem hornerEval_genPoly {k i : Nat} (hi : i < k) : hornerEval (genPoly k) (gfExp i) = 0#8 := by
  induction k with
  | zero => cases hi
  | succ k ih =>
    rw [genPoly, hornerEval_polyMul]
    rcases Nat.lt_succ_iff_lt_or_eq.mp hi with hlt | rfl
    · rw [ih hlt, gmul_zero_left]
    · exact (congrArg _ (hornerEval_linear_self _)).trans (gmul_zero_right _)

/-- Settles O34: evaluation is multiplicative, and `exp(i)` is the root of the factor `[1, exp(i)]`. -/
theorem generatorPolynomialHasItsRoots : Obligations.GeneratorPolynomialHasItsRoots := by
  refine fun k => ⟨genPoly_length k, ?_, fun i => hornerEval_genPoly⟩
  have hhead := headD_genPoly k
  obtain ⟨x, xs, hx⟩ := List.exists_cons_of_ne_nil (genPoly_ne_nil k)
  rw [hx] at hhead ⊢
  exact congrArg some hhead

end Sys2Proof.Machine
end

section
/-! SUPPORT. The obligations of the bit buffer (43_bitbuf.md R152 to R158). BPUT's loop is followed bit by bit: it
changes the bits from `COUNT` on, as many as the width, and two loops in a row are one. -/

namespace Sys2Proof.Machine

/-! ### The bits BPUT's loop writes (43_bitbuf.md R151, R153) -/

theorem State.putBits_faultCode (v : Half) (k : Nat) (s : State) : (State.putBits v k s).faultCode = s.faultCode := by
  rw [State.putBits_frame]

/-- The loop sets, among the `k` bits from `COUNT` on, those that are 1 in `v`, and touches no other bit. -/
theorem storeBit_putBits (v : Half) (k : Nat) {s : State} (h : s.count + k ≤ 8 * s.buf.length) (j : Nat) :
    storeBit (State.putBits v k s).buf j =
      if s.count ≤ j ∧ j < s.count + k then (storeBit s.buf j || v.getLsbD (s.count + k - 1 - j))
      else storeBit s.buf j := by
  induction k generalizing s with
  | zero => rw [if_neg (by omega), State.putBits_zero]
  | succ k ih =>
    have hroom : (s.putBit (v.getLsbD k)).count + k ≤ 8 * (s.putBit (v.getLsbD k)).buf.length := by
      rw [State.putBit_count, State.putBit_buf_length]
      omega
    rw [State.putBits_succ, ih hroom, State.putBit_count, storeBit_putBit s _ (by omega)]
    rcases Nat.lt_trichotomy j s.count with hj | rfl | hj
    · rw [if_neg (by omega), if_neg (by omega), if_neg (by omega)]
    · rw [if_neg (by omega), if_pos rfl, if_pos (by omega), show s.count + (k + 1) - 1 - s.count = k by omega]
    · rw [if_neg (show ¬j = s.count by omega), show s.count + 1 + k = s.count + (k + 1) by omega]
      exact if_congr (by omega) rfl rfl

/-- The loop leaves the bits before `COUNT` alone. -/
theorem storeBit_putBits_of_lt (v : Half) {k : Nat} {s : State} (hbuf : s.BufInv)
    (hroom : s.count + k ≤ 8 * s.cfg.dataCount) {j : Nat} (hj : j < s.count) :
    storeBit (State.putBits v k s).buf j = storeBit s.buf j := by
  obtain ⟨hlen, -, -⟩ := hbuf
  rw [storeBit_putBits v k (hlen.symm ▸ hroom), if_neg (by omega)]

/-- On a buffer of R29 the bits from `COUNT` on become those of `v`, most significant first. -/
theorem storeBit_putBits_count_add (v : Half) {k : Nat} {s : State} (hbuf : s.BufInv)
    (hroom : s.count + k ≤ 8 * s.cfg.dataCount) {i : Nat} (hi : i < k) :
    storeBit (State.putBits v k s).buf (s.count + i) = v.getLsbD (k - 1 - i) := by
  obtain ⟨hlen, -, hzero⟩ := hbuf
  have hplace : s.count + k - 1 - (s.count + i) = k - 1 - i := by omega
  rw [storeBit_putBits v k (hlen.symm ▸ hroom), if_pos (by omega), hzero _ (by omega) (by omega), Bool.false_or,
    hplace]

/-- The upper `k` of `k + m` bits and then the lower `m`. -/
theorem State.putBits_add (v : Half) (k m : Nat) (s : State) :
    State.putBits v (k + m) s = State.putBits v m (State.putBits (v >>> m) k s) := by
  induction k generalizing s with
  | zero => rw [Nat.zero_add, State.putBits_zero]
  | succ k ih =>
    rw [Nat.add_right_comm, State.putBits_succ, State.putBits_succ, ih, BitVec.getLsbD_ushiftRight, Nat.add_comm m k]

/-! ### Reading the buffer (43_bitbuf.md R155, R157) -/

/-- A byte that holds a written bit is a byte of the buffer (R28, R29). -/
theorem State.BufInv.exists_getElem? {s : State} (h : s.BufInv) {k : Nat} (hk : 8 * k < s.count) :
    ∃ b, s.buf[k]? = some b := by
  obtain ⟨hlen, hcount, -⟩ := h
  exact ⟨_, List.getElem?_eq_getElem (by omega)⟩

/-- BGET's answer is the bit shifted out of its byte (R155). -/
theorem valOfBool_getLsbD (b : Byte) (k : Nat) : valOfBool (b.getLsbD k) = ((b >>> k) &&& 1#8).setWidth 16 := by
  have hbit : ∀ x : Bool, valOfBool x = ((BitVec.ofBool x).setWidth 8).setWidth 16 := by decide
  rw [BitVec.and_one_eq_setWidth_ofBool_getLsbD, BitVec.getLsbD_ushiftRight, hbit]
  rfl

/-! ### Out of lockout -/

section Open
variable {s : State}

theorem exec_bclr_open (hopen : s.faultCode = none) :
    exec .bclr s = .next { s with
      count := 0, buf := List.replicate s.cfg.dataCount 0#8, response := some (okWord 0#16) } :=
  (unlessLocked_open hopen).trans (congrArg _ (State.answer_of_open (s := { s with count := 0, buf := _ }) hopen _))

theorem exec_bput_open (hopen : s.faultCode = none) (v : Half) {w : BitVec 5} (hw : w.toNat ≤ 16)
    (hroom : s.count + w.toNat ≤ 8 * s.cfg.dataCount) :
    exec (.bput v w) s = .next ((State.putBits v w.toNat s).withResponse
      (some (okWord (BitVec.ofNat 16 (s.count + w.toNat))))) := by
  have hopen' := (State.putBits_faultCode v w.toNat s).trans hopen
  rw [exec, execBput, unlessLocked_require_of_open hopen hw, State.require_pos hroom, State.answer_of_open hopen']
  rfl

theorem exec_bput_capacity (hopen : s.faultCode = none) (v : Half) {w : BitVec 5} (hw : w.toNat ≤ 16)
    (hfull : 8 * s.cfg.dataCount < s.count + w.toNat) : exec (.bput v w) s = .next (afterFault s .capacity) := by
  rw [exec, execBput, unlessLocked_require_of_open hopen hw, State.require_neg hfull.not_ge, State.raise_eq_afterFault]

theorem exec_bget_index (hopen : s.faultCode = none) {idx : Half} (hidx : s.count ≤ idx.toNat) :
    exec (.bget idx) s = .next (afterFault s .index) :=
  unlessLocked_require_fault hopen hidx.not_gt _ _

theorem exec_brdb_index (hopen : s.faultCode = none) {j : Half} (hj : s.count ≤ 8 * j.toNat) :
    exec (.brdb j) s = .next (afterFault s .index) :=
  unlessLocked_require_fault hopen hj.not_gt _ _

theorem exec_bget_of_getElem? (hopen : s.faultCode = none) {idx : Half} {b : Byte} (hidx : idx.toNat < s.count)
    (hget : s.buf[idx.toNat / 8]? = some b) :
    exec (.bget idx) s = .next { s with
      response := some (okWord (((b >>> (7 - idx.toNat % 8)) &&& 1#8).setWidth 16)) } := by
  rw [exec, execBget, unlessLocked_require_of_open hopen hidx, State.answer_of_open hopen, storeBit, List.getD, hget,
    Option.getD_some, valOfBool_getLsbD]

theorem exec_brdb_of_getElem? (hopen : s.faultCode = none) {j : Half} {b : Byte} (hj : 8 * j.toNat < s.count)
    (hget : s.buf[j.toNat]? = some b) :
    exec (.brdb j) s = .next { s with response := some (okWord (b.setWidth 16)) } := by
  rw [exec, execBrdb, unlessLocked_require_of_open hopen hj, State.answer_of_open hopen, List.getD, hget]
  rfl

end Open

/-! ### One bit (43_bitbuf.md R154) -/

theorem exec_bputb_eq_exec_bput (b : Bool) (s : State) :
    exec (.bputb b) s = exec (.bput (if b then 1#16 else 0#16) 1#5) s := by
  have hbit : (if b then 1#16 else 0#16 : Half).getLsbD 0 = b := by cases b <;> rfl
  have hloop : State.putBits (if b then 1#16 else 0#16) 1 s = s.putBit b := by
    rw [State.putBits_succ, State.putBits_zero, hbit]
  have hwidth : (1#5).toNat = 1 := rfl
  change execBputb b s = execBput _ 1#5 s
  rw [execBputb, execBput, hwidth, hloop, State.require_pos (c := 1 ≤ 16) (by decide)]

/-! ### The obligations -/

/-- Settles O37: the loop of BPUT sets the bits from `COUNT` on, which R29 has at 0. -/
theorem bputAppendsTheBitsOrNone : Obligations.BputAppendsTheBitsOrNone := by
  refine ⟨fun v w hw => decodeOfEncodeIsTheCommand (.bput v w) (decide_eq_true hw), fun v w s hopen hw =>
    ⟨fun hbuf hroom => ?_, exec_bput_capacity hopen v hw⟩⟩
  obtain ⟨hlen, -, hzero⟩ := State.bufInv_putBits v w.toNat hbuf hroom
  rw [State.putBits_cfg] at hlen hzero
  rw [State.putBits_count] at hzero
  refine ⟨_, exec_bput_open hopen v hw hroom, ?_, hlen, fun j => storeBit_putBits_of_lt v hbuf hroom,
    fun k => storeBit_putBits_count_add v hbuf hroom, hzero⟩
  exact congrArg (State.withResponse · _) (State.putBits_frame v w.toNat s)

/-- Settles O38: BPUTB is the BPUT of one bit. -/
theorem bputbAppendsOneBit : Obligations.BputbAppendsOneBit := by
  refine ⟨fun b => decodeOfEncodeIsTheCommand (.bputb b) rfl, exec_bputb_eq_exec_bput, fun b s hopen =>
    ⟨fun hbuf hroom => ?_, fun hfull => ?_⟩⟩
  · obtain ⟨-, hbput⟩ := bputAppendsTheBitsOrNone
    obtain ⟨hfits, -⟩ := hbput (if b then 1#16 else 0#16) 1#5 s hopen (by decide)
    obtain ⟨t, hexec, hframe, -, hbefore, hbits, -⟩ := hfits hbuf hroom
    refine ⟨t, (exec_bputb_eq_exec_bput b s).trans hexec, hframe, (hbits 0 (by decide)).trans ?_, hbefore⟩
    cases b <;> rfl
  · rw [exec_bputb_eq_exec_bput]
    exact exec_bput_capacity hopen _ (by decide) hfull

/-- Settles O40: the loop over `w` bits is the loop over the upper `w - m` and then over the lower `m`, and the second
BPUT does not read the first one's answer. -/
theorem bputSplits : Obligations.BputSplits := by
  intro v w m s hopen hw hm hroom
  have hwidth : (w - m).toNat = w.toNat - m.toNat := BitVec.toNat_sub_of_le hm
  have hopen' := (State.putBits_faultCode (v >>> m.toNat) (w - m).toNat s).trans hopen
  have hcount := State.putBits_count (v >>> m.toNat) (w - m).toNat s
  have hcfg := State.putBits_cfg (v >>> m.toNat) (w - m).toNat s
  refine ⟨_, _, exec_bput_open hopen _ (by omega) (by omega),
    (exec_withResponse ..).trans (exec_bput_open hopen' v (by omega) (by rw [hcfg]; omega)), ?_⟩
  have hsum : (w - m).toNat + m.toNat = w.toNat := by omega
  rw [exec_bput_open hopen v hw hroom, ← State.putBits_add, hcount, Nat.add_assoc, hsum]

/-- Settles O36: BCLR checks nothing but lockout. -/
theorem bclrEmptiesTheBuffer : Obligations.BclrEmptiesTheBuffer :=
  ⟨rfl, fun _ hopen => exec_bclr_open hopen⟩

/-- Settles O39: an index below `COUNT` lies in a byte of the buffer. -/
theorem bgetAndBrdbAnswerOrRaiseIndex : Obligations.BgetAndBrdbAnswerOrRaiseIndex := by
  refine ⟨fun idx => decodeOfEncodeIsTheCommand (.bget idx) rfl, fun j => decodeOfEncodeIsTheCommand (.brdb j) rfl,
    fun idx s hopen => ⟨fun hbuf hidx => ?_, exec_bget_index hopen, fun hbuf hidx => ?_, exec_brdb_index hopen⟩⟩
  · obtain ⟨b, hb⟩ := hbuf.exists_getElem? (k := idx.toNat / 8) (by omega)
    exact ⟨b, hb, exec_bget_of_getElem? hopen hidx hb⟩
  · obtain ⟨b, hb⟩ := hbuf.exists_getElem? hidx
    exact ⟨b, hb, exec_brdb_of_getElem? hopen hidx hb⟩

end Sys2Proof.Machine
end

section
/-! SUPPORT. The obligation of the host's payload sequence (44_payload_host.md R172 to R179): the bits each part of the
sequence writes add up to the buffer's size, and a run in which every command is answered without an error is built up
command by command. -/

namespace Sys2Proof.Machine

/-! ### Runs without an error (30_encoding.md R91) -/

/-- The host's run of `is` takes `s` to `t`, and every command of it is answered with `ERR = 0`. -/
inductive OkRun : List Instr → State → State → Prop
  | nil {s : State} : OkRun [] s s
  | cons {i : Instr} {rest : List Instr} {s t u : State} {v : Half} (hexec : exec i s = .next t)
      (hresp : t.response = some (okWord v)) (hrest : OkRun rest t u) : OkRun (i :: rest) s u

theorem State.answer_response_of_open {s : State} (hopen : s.faultCode = none) (v : Half) :
    (s.answer v).response = some (okWord v) := by
  rw [State.answer_of_open hopen]

/-- A command that ends in an answer out of lockout, and then the rest of the run. -/
theorem OkRun.cons_answer {i : Instr} {rest : List Instr} {s t u : State} {v : Half}
    (hexec : exec i s = .next (t.answer v)) (hopen : t.faultCode = none) (hrest : OkRun rest (t.answer v) u) :
    OkRun (i :: rest) s u :=
  .cons hexec (State.answer_response_of_open hopen v) hrest

theorem OkRun.append {is js : List Instr} {s t u : State} (h : OkRun is s t) (h' : OkRun js t u) :
    OkRun (is ++ js) s u := by
  induction h with
  | nil => exact h'
  | cons hexec hresp _ ih => exact .cons hexec hresp (ih h')

theorem OkRun.hostRun_eq {is : List Instr} {s t : State} (h : OkRun is s t) :
    (hostRun is s).1.length = is.length ∧ (∀ w ∈ (hostRun is s).1, responseErr w = false) ∧ (hostRun is s).2 = t := by
  induction h with
  | nil => exact ⟨rfl, nofun, rfl⟩
  | cons hexec hresp _ ih =>
    obtain ⟨hlen, hok, hend⟩ := ih
    rw [hostRun_cons_of_ok hexec hresp]
    exact ⟨congrArg (· + 1) hlen, List.forall_mem_cons.mpr ⟨responseWord_err false 0 _, hok⟩, hend⟩

/-! ### The bits of the payload sequence (44_payload_host.md R173 to R177) -/

@[simp] theorem totalBits_nil : totalBits [] = 0 := rfl

@[simp] theorem totalBits_cons (i : Instr) (is : List Instr) : totalBits (i :: is) = bitsWritten i + totalBits is := rfl

@[simp] theorem totalBits_append (is js : List Instr) : totalBits (is ++ js) = totalBits is + totalBits js := by
  simp [totalBits]

@[simp] theorem bitsWritten_hostBput8 (b : Half) : bitsWritten (hostBput8 b) = 8 := rfl

theorem totalBits_map_hostBput8 {α : Type} (f : α → Half) (xs : List α) :
    totalBits (xs.map (fun x => hostBput8 (f x))) = 8 * xs.length := by
  induction xs with
  | nil => rfl
  | cons x xs ih => rw [List.map_cons, totalBits_cons, ih, bitsWritten_hostBput8, List.length_cons]; omega

/-- The mode, the length and the characters (R173, R174). -/
theorem totalBits_hostText (h : HostParams) (text : List Nat) : totalBits (hostText h text) = 12 + 8 * text.length := by
  rw [hostText, totalBits_append, totalBits_map_hostBput8]
  rfl

/-- The terminator is left out where it does not fit (R175). -/
theorem totalBits_append_hostTerminator_le (h : HostParams) {dataCount : Nat} {is : List Instr}
    (hfit : totalBits is ≤ 8 * dataCount) :
    totalBits (is ++ hostTerminator h dataCount (totalBits is)) ≤ 8 * dataCount := by
  rw [totalBits_append, hostTerminator]
  split
  · assumption
  · exact hfit

theorem totalBits_hostBitPad (count : Nat) : totalBits (hostBitPad count) = (8 - count % 8) % 8 := by
  simp [totalBits, hostBitPad, bitsWritten]

/-- The padded bits are whole bytes, so what the buffer has left are whole bytes too (R176). -/
theorem exists_bytes_left_of_append_hostBitPad {dataCount : Nat} {is : List Instr}
    (hfit : totalBits is ≤ 8 * dataCount) :
    ∃ k, k ≤ dataCount ∧ totalBits (is ++ hostBitPad (totalBits is)) + 8 * k = 8 * dataCount := by
  rw [totalBits_append, totalBits_hostBitPad]
  exact ⟨dataCount - (totalBits is + 7) / 8, by omega, by omega⟩

/-- The filler loop makes up the `k` bytes that are missing, given fuel for them (R177). -/
theorem totalBits_hostFiller (k : Nat) {fuel : Nat} (hfuel : k ≤ fuel) (count : Nat) (second : Bool) :
    totalBits (hostFiller (count + 8 * k) fuel count second) = 8 * k := by
  induction k generalizing fuel count second with
  | zero => cases fuel <;> simp [hostFiller]
  | succ k ih =>
    obtain ⟨f, rfl⟩ : ∃ f, fuel = f + 1 := ⟨fuel - 1, by omega⟩
    rw [hostFiller, if_pos (by omega), totalBits_cons, bitsWritten_hostBput8,
      show count + 8 * (k + 1) = count + 8 + 8 * k by omega, ih (by omega)]
    omega

/-- An accepted payload writes as many bits as the buffer holds (R172, R177). -/
theorem totalBits_of_hostPayload {h : HostParams} {dataCount : Nat} {text : List Nat} {is : List Instr}
    (hp : hostPayload h dataCount text = some is) : totalBits is = 8 * dataCount := by
  unfold hostPayload at hp
  split at hp
  · next haccept =>
    have hended := totalBits_append_hostTerminator_le h ((totalBits_hostText h text).trans_le haccept.2)
    obtain ⟨k, hk, hpadded⟩ := exists_bytes_left_of_append_hostBitPad hended
    obtain rfl := Option.some.inj hp
    rw [← hpadded, totalBits_append, totalBits_hostFiller k hk]
  · cases hp

/-! ### The commands of the payload sequence (44_payload_host.md R173 to R178) -/

/-- The commands that append bits to the buffer, BPUT with a legal width. -/
def AppendsBits : Instr → Prop
  | .bput _ w => w.toNat ≤ 16
  | .bputb _ => True
  | _ => False

theorem appendsBits_hostBput8 (b : Half) : AppendsBits (hostBput8 b) := show (8#5).toNat ≤ 16 by decide

theorem appendsBits_of_mem_hostFiller {cap fuel count : Nat} {second : Bool} {i : Instr}
    (hi : i ∈ hostFiller cap fuel count second) : AppendsBits i := by
  induction fuel generalizing count second with
  | zero => cases hi
  | succ f ih =>
    rw [hostFiller] at hi
    split at hi
    · rcases List.mem_cons.mp hi with rfl | hi
      · exact appendsBits_hostBput8 _
      · exact ih hi
    · cases hi

theorem appendsBits_of_mem_hostTerminator {h : HostParams} {dataCount count : Nat} {i : Instr}
    (hi : i ∈ hostTerminator h dataCount count) : AppendsBits i := by
  unfold hostTerminator at hi
  split at hi
  · rw [List.mem_singleton.mp hi]
    exact show (4#5).toNat ≤ 16 by decide
  · cases hi

theorem appendsBits_of_mem_hostBitPad {count : Nat} {i : Instr} (hi : i ∈ hostBitPad count) : AppendsBits i := by
  rw [List.eq_of_mem_replicate hi]
  trivial

/-- The text part is BCLR and then commands that append bits. -/
theorem exists_hostText_eq (h : HostParams) (text : List Nat) :
    ∃ ws, hostText h text = .bclr :: ws ∧ ∀ i ∈ ws, AppendsBits i := by
  refine ⟨_, rfl, List.forall_mem_cons.mpr ⟨show (4#5).toNat ≤ 16 by decide,
    List.forall_mem_cons.mpr ⟨show (8#5).toNat ≤ 16 by decide, fun i hi => ?_⟩⟩⟩
  obtain ⟨cp, -, rfl⟩ := List.mem_map.mp hi
  exact appendsBits_hostBput8 _

/-- An accepted payload is BCLR and then commands that append bits (R178). -/
theorem exists_hostPayload_eq {h : HostParams} {dataCount : Nat} {text : List Nat} {is : List Instr}
    (hp : hostPayload h dataCount text = some is) : ∃ ws, is = .bclr :: ws ∧ ∀ i ∈ ws, AppendsBits i := by
  unfold hostPayload at hp
  split at hp
  · obtain rfl := Option.some.inj hp
    obtain ⟨ws, hws, hbits⟩ := exists_hostText_eq h text
    refine ⟨_, by rw [hws, List.cons_append, List.cons_append, List.cons_append], ?_⟩
    simp only [List.forall_mem_append]
    exact ⟨⟨⟨hbits, fun _ => appendsBits_of_mem_hostTerminator⟩, fun _ => appendsBits_of_mem_hostBitPad⟩,
      fun _ => appendsBits_of_mem_hostFiller⟩
  · cases hp

/-! ### Out of lockout -/

section Open
variable {s : State}

theorem exec_bputb_open (hopen : s.faultCode = none) (b : Bool) (hroom : s.count + 1 ≤ 8 * s.cfg.dataCount) :
    exec (.bputb b) s = .next ((s.putBit b).answer (valOfNat (s.count + 1))) :=
  unlessLocked_require_of_open hopen hroom _ _

theorem exec_rsenc_open (hopen : s.faultCode = none) (hfull : s.count = 8 * s.cfg.dataCount) :
    exec .rsenc s = .next (({ s with cw := some (codewords s.cfg.ecCount s.buf) } : State).answer
      (valOfNat s.cfg.totalCount)) :=
  unlessLocked_require_of_open hopen hfull _ _

theorem exec_mxclr_open (hopen : s.faultCode = none) :
    exec .mxclr s = .next (({ s with
      mx := List.replicate s.cfg.n (List.replicate s.cfg.n .unset), mxp := .cleared } : State).answer 0) :=
  unlessLocked_open hopen

theorem exec_mxfind_open (hopen : s.faultCode = none) (hp : s.mxp = .cleared) :
    exec .mxfind s = .next (({ s with mx := stampGrid s.cfg.n s.mx, mxp := .stamped } : State).answer 0) :=
  unlessLocked_require_of_open hopen hp _ _

theorem exec_mxplace_open {cw : List Byte} (hopen : s.faultCode = none) (hp : s.mxp = .stamped)
    (hcw : s.cw = some cw) :
    exec .mxplace s = .next (({ s with mx := (placeAll s.cfg cw s.mx).1, mxp := .placed } : State).answer
      (valOfNat (placeAll s.cfg cw s.mx).2)) := by
  rw [exec, execMxplace, unlessLocked_require_of_open hopen hp, hcw]

/-- A command that appends bits moves `COUNT` by them when there is room. -/
theorem exec_of_appendsBits (hopen : s.faultCode = none) {i : Instr} (hi : AppendsBits i)
    (hroom : s.count + bitsWritten i ≤ 8 * s.cfg.dataCount) :
    ∃ t v, exec i s = .next t ∧ t.response = some (okWord v) ∧ t.faultCode = none ∧ t.cfg = s.cfg ∧
      t.count = s.count + bitsWritten i := by
  cases i with
  | bput v w =>
    exact ⟨_, _, exec_bput_open hopen v hi hroom, rfl, (State.putBits_faultCode v w.toNat s).trans hopen,
      State.putBits_cfg v w.toNat s, State.putBits_count v w.toNat s⟩
  | bputb b =>
    have hopen' : (s.putBit b).faultCode = none := hopen
    exact ⟨_, _, exec_bputb_open hopen b hroom, State.answer_response_of_open hopen' _, hopen', rfl, rfl⟩
  | _ => exact hi.elim

/-! ### The parts of an encode call (44_payload_host.md R178, R179) -/

theorem exists_okRun_of_appendsBits {ws : List Instr} (hws : ∀ i ∈ ws, AppendsBits i) (hopen : s.faultCode = none)
    (hroom : s.count + totalBits ws ≤ 8 * s.cfg.dataCount) :
    ∃ t, OkRun ws s t ∧ t.faultCode = none ∧ t.cfg = s.cfg ∧ t.count = s.count + totalBits ws := by
  induction ws generalizing s with
  | nil => exact ⟨s, .nil, hopen, rfl, rfl⟩
  | cons i ws ih =>
    obtain ⟨hi, hrest⟩ := List.forall_mem_cons.mp hws
    rw [totalBits_cons, ← Nat.add_assoc] at hroom ⊢
    obtain ⟨t, v, hexec, hresp, hopen', hcfg, hcount⟩ := exec_of_appendsBits hopen hi (by omega)
    rw [← hcfg, ← hcount] at hroom
    obtain ⟨u, hrun, hfault, hcfg', hcount'⟩ := ih hrest hopen' hroom
    exact ⟨u, .cons hexec hresp hrun, hfault, hcfg'.trans hcfg, by rw [hcount', hcount]⟩

/-- An accepted payload succeeds and fills the buffer. -/
theorem exists_okRun_hostPayload {h : HostParams} {text : List Nat} {is : List Instr} (hopen : s.faultCode = none)
    (hp : hostPayload h s.cfg.dataCount text = some is) :
    ∃ t, OkRun is s t ∧ t.faultCode = none ∧ t.cfg = s.cfg ∧ t.count = 8 * s.cfg.dataCount := by
  obtain ⟨ws, rfl, hws⟩ := exists_hostPayload_eq hp
  have hbits : totalBits ws = 8 * s.cfg.dataCount := by
    simpa [bitsWritten] using totalBits_of_hostPayload hp
  obtain ⟨t, hrun, hfault, hcfg, hcount⟩ :=
    exists_okRun_of_appendsBits (s := { s with count := 0, buf := _, response := _ }) hws hopen
      ((Nat.zero_add _).trans_le hbits.le)
  exact ⟨t, .cons (exec_bclr_open hopen) rfl hrun, hfault, hcfg, by rw [hcount, hbits, Nat.zero_add]⟩

/-- On a full buffer RSENC and MXBUILD succeed: each leaves what the next one asks for. -/
theorem exists_okRun_rsenc_hostMxbuild (hopen : s.faultCode = none) (hfull : s.count = 8 * s.cfg.dataCount) :
    ∃ t, OkRun (.rsenc :: hostMxbuild) s t ∧ t.faultCode = none ∧ t.mxp = .placed ∧ t.cw.isSome = true ∧
      t.count = s.count :=
  ⟨_, .cons_answer (exec_rsenc_open hopen hfull) hopen (.cons_answer (exec_mxclr_open hopen) hopen
    (.cons_answer (exec_mxfind_open hopen rfl) hopen (.cons_answer (exec_mxplace_open hopen rfl rfl) hopen .nil))),
    hopen, rfl, rfl, rfl⟩

end Open

/-- An encode call succeeds from every state, because SRST opens lockout. -/
theorem exists_okRun_hostEncode {h : HostParams} {s : State} {text : List Nat} {is : List Instr}
    (he : hostEncode h s.cfg.dataCount text = some is) :
    ∃ t, OkRun is s t ∧ t.faultCode = none ∧ t.mxp = .placed ∧ t.cw.isSome = true ∧
      t.count = 8 * s.cfg.dataCount := by
  obtain ⟨p, hp, rfl⟩ := Option.map_eq_some_iff.mp he
  obtain ⟨t, hpayload, hopen, hcfg, hcount⟩ :=
    exists_okRun_hostPayload (s := s.softReset.answer 0) rfl hp
  obtain ⟨u, hbuild, hfault, hmxp, hcw, hcount'⟩ := exists_okRun_rsenc_hostMxbuild hopen (by rw [hcount, hcfg])
  exact ⟨u, .cons_answer rfl s.softReset_faultCode (hpayload.append hbuild), hfault, hmxp, hcw, hcount'.trans hcount⟩

theorem hostEncode_eq_none_iff {h : HostParams} {dataCount : Nat} {text : List Nat} :
    hostEncode h dataCount text = none ↔ 255 < text.length ∨ 8 * dataCount < 12 + 8 * text.length := by
  rw [hostEncode, Option.map_eq_none_iff, hostPayload]
  split
  · next haccept => exact iff_of_false nofun (by omega)
  · next hreject => exact iff_of_true rfl (by omega)

/-- Settles O58: the parts of the payload add up to the buffer's size, SRST opens lockout, and each command of the call
leaves what the next one asks for. No part of the invariant is needed. -/
theorem anAcceptedEncodeCallEndsPlaced : Obligations.AnAcceptedEncodeCallEndsPlaced := by
  refine fun h s text _ => ⟨hostEncode_eq_none_iff, fun is hp => totalBits_of_hostPayload hp, fun is he => ?_⟩
  obtain ⟨t, hrun, hfault, hmxp, hcw, hcount⟩ := exists_okRun_hostEncode he
  obtain ⟨hlen, hok, rfl⟩ := hrun.hostRun_eq
  exact ⟨hlen, hok, hfault, hmxp, hcw, hcount⟩

end Sys2Proof.Machine
end

section
/-! SUPPORT. The obligations of the codewords (45_rs.md R188 to R190). The codeword sequence stands for a polynomial,
the data shifted up by EC_COUNT places plus the remainder, and that is a multiple of the generator polynomial. -/

namespace Sys2Proof.Machine

/-! ### The codeword sequence as a polynomial (45_rs.md R187, R188) -/

/-- The remainder fits the EC_COUNT correction codewords. -/
theorem length_polyMod_msgPoly_le (k : Nat) (d : List Byte) : (polyMod (msgPoly k d) (genPoly k)).length ≤ k := by
  have hlt := polyMod_length_lt (msgPoly_normal k d) (genPoly_normal k) (genPoly_ne_nil k)
  rw [genPoly_length] at hlt
  exact Nat.le_of_lt_succ hlt

namespace ByteEmbedding

open Polynomial

variable {F : Type} [CommRing F] (e : ByteEmbedding F)

theorem poly_append (p q : List Byte) : e.poly (p ++ q) = e.poly p * X ^ q.length + e.poly q := by
  induction p with
  | nil => simp
  | cons c p ih =>
    rw [List.cons_append, poly_cons, poly_cons, ih, List.length_append]
    ring

/-- The message is the data shifted up by EC_COUNT places, also when the data are all zero. -/
theorem poly_msgPoly (k : Nat) (d : List Byte) : e.poly (msgPoly k d) = e.poly d * X ^ k := by
  rw [msgPoly]
  split
  · next hnil => rw [← e.poly_trim d, hnil, poly_nil, zero_mul]
  · rw [poly_append, BitVec.ofNat_eq_ofNat, poly_replicate_zero, List.length_replicate, poly_trim, add_zero]

theorem poly_codewords (k : Nat) (d : List Byte) :
    e.poly (codewords k d) = e.poly d * X ^ k + e.poly (polyMod (msgPoly k d) (genPoly k)) := by
  rw [codewords, poly_append, poly_padLeft, padLeft_length (length_polyMod_msgPoly_le k d)]

/-- Message plus remainder is a multiple of the divisor, because sum and difference are the same. -/
theorem exists_poly_codewords (k : Nat) (d : List Byte) :
    ∃ q, e.poly (codewords k d) = e.poly q * e.poly (genPoly k) := by
  obtain ⟨q, hq⟩ := e.exists_quotient (msgPoly k d) (genPoly k)
  refine ⟨q, ?_⟩
  rw [poly_codewords, ← poly_msgPoly, hq]
  linear_combination e.poly (polyMod (msgPoly k d) (genPoly k)) * e.two_eq_zero

end ByteEmbedding

/-! ### The Reed-Solomon code (45_rs.md R190 (c), (d)) -/

theorem hornerEval_codewords (d : List Byte) {k i : Nat} (hi : i < k) :
    hornerEval (codewords k d) (gfExp i) = 0#8 := by
  obtain ⟨F, _, ⟨e⟩⟩ := exists_byteEmbedding
  obtain ⟨q, hq⟩ := e.exists_poly_codewords k d
  apply e.val_injective
  rw [e.val_hornerEval, hq, Polynomial.eval_mul, ← e.val_hornerEval (genPoly k), hornerEval_genPoly hi, e.val_zero,
    mul_zero]

theorem polyMod_trim_codewords (k : Nat) (d : List Byte) : polyMod (trim (codewords k d)) (genPoly k) = [] := by
  obtain ⟨F, _, ⟨e⟩⟩ := exists_byteEmbedding
  obtain ⟨q, hq⟩ := e.exists_poly_codewords k d
  refine (e.eq_polyMod (q := q) (trim_normal _) (genPoly_normal k) (genPoly_ne_nil k) (.inl rfl)
    (List.length_pos_iff.mpr (genPoly_ne_nil k)) ?_).symm
  rw [e.poly_trim, hq, e.poly_nil, add_zero]

theorem msgPoly_zipWith_gadd (k : Nat) {d d' : List Byte} (hlen : d.length = d'.length) :
    msgPoly k (List.zipWith gadd d d') = polyAdd (msgPoly k d) (msgPoly k d') := by
  obtain ⟨F, _, ⟨e⟩⟩ := exists_byteEmbedding
  apply e.eq_of_poly_eq (msgPoly_normal _ _) (polyAdd_normal _ _)
  rw [e.poly_polyAdd, e.poly_msgPoly, e.poly_msgPoly, e.poly_msgPoly, e.poly_zipWith_gadd hlen, add_mul]

/-! ### The bytes of the codeword sequence (45_rs.md R188) -/

theorem getElem?_codewords_data (k : Nat) {d : List Byte} {j : Nat} (hj : j < d.length) :
    (codewords k d)[j]? = d[j]? :=
  List.getElem?_append_left hj

/-- Behind the data stand the zeros and then the remainder. -/
theorem getElem?_codewords_correction (k : Nat) (d : List Byte) (j : Nat) :
    (codewords k d)[d.length + j]? =
      if j < k - (polyMod (msgPoly k d) (genPoly k)).length then some 0#8
      else (polyMod (msgPoly k d) (genPoly k))[j - (k - (polyMod (msgPoly k d) (genPoly k)).length)]? := by
  rw [codewords, List.getElem?_append_right (Nat.le_add_right _ _), Nat.add_sub_cancel_left, padLeft]
  split
  · next hj => rw [List.getElem?_append_left (by simpa using hj), List.getElem?_replicate_of_lt hj]; rfl
  · next hj => rw [List.getElem?_append_right (by simpa using hj), List.length_replicate]

/-! ### RSENC and CWRD out of lockout (45_rs.md R188, R189) -/

section Open
variable {s : State}

theorem exec_rsenc_sequence (hopen : s.faultCode = none) (hcount : s.count ≠ 8 * s.cfg.dataCount) :
    exec .rsenc s = .next (afterFault s .sequence) :=
  unlessLocked_require_fault hopen hcount _ _

/-- An RSENC that raises no fault has written the codewords of the buffer. -/
theorem cw_of_exec_rsenc {t : State} (hopen : s.faultCode = none) (hexec : exec .rsenc s = .next t)
    (hok : t.faultCode = none) : t.cw = some (codewords s.cfg.ecCount s.buf) := by
  by_cases hcount : s.count = 8 * s.cfg.dataCount
  · cases (exec_rsenc_open hopen hcount).symm.trans hexec
    rfl
  · cases (exec_rsenc_sequence hopen hcount).symm.trans hexec
    cases hok

theorem exec_cwrd_sequence (hopen : s.faultCode = none) (idx : Half) (hcw : s.cw = none) :
    exec (.cwrd idx) s = .next (afterFault s .sequence) := by
  rw [exec, execCwrd, unlessLocked_open hopen, hcw, State.raise_eq_afterFault]

/-- While there are codewords the check left is the one on the index (R251). -/
theorem exec_cwrd_of_cw (idx : Half) {l : List Byte} (hcw : s.cw = some l) :
    exec (.cwrd idx) s = unlessLocked s
      (s.require (idx.toNat < s.cfg.totalCount) .index (s.answer (valOfByte (l.getD idx.toNat 0)))) := by
  rw [exec, execCwrd, hcw]

theorem exec_cwrd_index (hopen : s.faultCode = none) {idx : Half} {l : List Byte} (hcw : s.cw = some l)
    (hidx : s.cfg.totalCount ≤ idx.toNat) : exec (.cwrd idx) s = .next (afterFault s .index) :=
  (exec_cwrd_of_cw idx hcw).trans (unlessLocked_require_fault hopen hidx.not_gt _ _)

theorem exec_cwrd_of_getElem? (hopen : s.faultCode = none) {idx : Half} {l : List Byte} {b : Byte}
    (hcw : s.cw = some l) (hidx : idx.toNat < s.cfg.totalCount) (hget : l[idx.toNat]? = some b) :
    exec (.cwrd idx) s = .next { s with response := some (okWord (b.setWidth 16)) } := by
  rw [exec_cwrd_of_cw idx hcw, unlessLocked_require_of_open hopen hidx, State.answer_of_open hopen, List.getD, hget]
  rfl

end Open

/-! ### The obligations -/

/-- Settles O41: the bytes of the sequence are those of `codewords`, whose remainder is shorter than the divisor. -/
theorem rsencWritesTheCodewordSequence : Obligations.RsencWritesTheCodewordSequence := by
  refine ⟨decodeOfEncodeIsTheCommand .rsenc rfl, fun s hopen hfull hbuf => ?_, fun _ => exec_rsenc_sequence⟩
  refine ⟨codewords s.cfg.ecCount s.buf, (exec_rsenc_open hopen hfull).trans ?_, ?_, fun j hj => ?_,
    length_polyMod_msgPoly_le _ _, fun j _ => ?_⟩
  · exact congrArg _ (State.answer_of_open (s := { s with cw := some _ }) hopen _)
  · rw [codewords_length, hbuf]
  · exact getElem?_codewords_data _ (hbuf.symm ▸ hj)
  · rw [← hbuf]
    exact getElem?_codewords_correction _ _ j

/-- Settles O42: a multiple of the generator polynomial has its roots and leaves no remainder. -/
theorem codewordsVanishAtTheGeneratorRoots : Obligations.CodewordsVanishAtTheGeneratorRoots := by
  intro s t l _ _ hopen hexec hok hl
  cases hl.symm.trans (cw_of_exec_rsenc hopen hexec hok)
  exact ⟨fun i => hornerEval_codewords s.buf, polyMod_trim_codewords _ _⟩

/-- Settles O43: the message is linear in the data and the remainder in the message. -/
theorem codewordsAreLinearInTheData : Obligations.CodewordsAreLinearInTheData := by
  intro k d d' hlen
  obtain ⟨F, _, ⟨e⟩⟩ := exists_byteEmbedding
  have hcw : (codewords k d).length = (codewords k d').length := by rw [codewords_length, codewords_length, hlen]
  have hmod : polyMod (msgPoly k (List.zipWith gadd d d')) (genPoly k) =
      polyAdd (polyMod (msgPoly k d) (genPoly k)) (polyMod (msgPoly k d') (genPoly k)) := by
    rw [msgPoly_zipWith_gadd k hlen]
    exact polyMod_polyAdd (msgPoly_normal k d) (msgPoly_normal k d') (genPoly_normal k) (genPoly_ne_nil k)
  apply e.eq_of_poly_eq_of_length_eq
  · rw [e.poly_zipWith_gadd hcw, e.poly_codewords, e.poly_codewords, e.poly_codewords, hmod, e.poly_polyAdd,
      e.poly_zipWith_gadd hlen]
    ring
  · simp [codewords_length, hlen]

/-- Settles O44: an index below TOTAL_COUNT is one of the sequence (R30). -/
theorem cwrdAnswersTheCodewordOrFaults : Obligations.CwrdAnswersTheCodewordOrFaults := by
  refine ⟨fun idx => decodeOfEncodeIsTheCommand (.cwrd idx) rfl, fun idx s hopen =>
    ⟨exec_cwrd_sequence hopen idx, fun l hcw _ => exec_cwrd_index hopen hcw, fun l hcw hinv hidx => ?_⟩⟩
  have hlt : idx.toNat < l.length := hidx.trans_eq (hinv l hcw).symm
  have hget := List.getElem?_eq_getElem hlt
  exact ⟨_, hget, exec_cwrd_of_getElem? hopen hcw hidx hget⟩

end Sys2Proof.Machine
end

section
/-! SUPPORT. The obligations of the matrix (46_matrix.md R201 to R218). A stamped matrix is one and the same in every
state of the invariant, and the traversal is a zigzag whose entries are counted; so the cells that MXPLACE fills, their
number and their values are known. -/

namespace Sys2Proof.Machine

/-! ### The cells of the finder stamps (46_matrix.md R203 to R206) -/

section Stamps
variable {n r c : Nat}

theorem stampOf_inside {corner : Int × Int} (h : -1 ≤ (r : Int) - corner.1 ∧ (r : Int) - corner.1 ≤ 7 ∧
    -1 ≤ (c : Int) - corner.2 ∧ (c : Int) - corner.2 ≤ 7) :
    stampOf r c corner = some (finderCell ((r : Int) - corner.1) ((c : Int) - corner.2)) := if_pos h

theorem stampOf_outside {corner : Int × Int} (h : ¬(-1 ≤ (r : Int) - corner.1 ∧ (r : Int) - corner.1 ≤ 7 ∧
    -1 ≤ (c : Int) - corner.2 ∧ (c : Int) - corner.2 ≤ 7)) : stampOf r c corner = none := if_neg h

/-- The stamp made last comes first. -/
theorem stampValue_eq_or (n r c : Nat) : stampValue n r c =
    (stampOf r c ((n : Int) - 7, 0)).or ((stampOf r c (0, (n : Int) - 7)).or (stampOf r c (0, 0))) := by
  simp only [stampValue, corners, List.reverse_cons, List.reverse_nil, List.nil_append, List.cons_append,
    List.findSome?_cons, List.findSome?_nil]
  cases stampOf r c ((n : Int) - 7, 0) <;> cases stampOf r c (0, (n : Int) - 7) <;> cases stampOf r c (0, 0) <;> rfl

theorem stampValue_topLeft (hn : 17 ≤ n) (hr : r < 8) (hc : c < 8) : stampValue n r c = some (finderCell r c) := by
  rw [stampValue_eq_or, stampOf_outside (by dsimp only; omega), stampOf_outside (by dsimp only; omega),
    stampOf_inside (by dsimp only; omega), Option.none_or, Option.none_or, Int.sub_zero, Int.sub_zero]

theorem stampValue_topRight (hn : 17 ≤ n) (hr : r < 8) (hc : n - 8 ≤ c) (hcn : c < n) :
    stampValue n r c = some (finderCell r ((c : Int) - ((n : Int) - 7))) := by
  rw [stampValue_eq_or, stampOf_outside (by dsimp only; omega), stampOf_inside (by dsimp only; omega),
    Option.none_or, Option.some_or, Int.sub_zero]

theorem stampValue_bottomLeft (hn : 17 ≤ n) (hr : n - 8 ≤ r) (hrn : r < n) (hc : c < 8) :
    stampValue n r c = some (finderCell ((r : Int) - ((n : Int) - 7)) c) := by
  rw [stampValue_eq_or, stampOf_inside (by dsimp only; omega), Option.some_or, Int.sub_zero]

/-- A cell outside the three 8 x 8 blocks in the corners. -/
def OutsideStamps (n r c : Nat) : Prop :=
  ¬(r < 8 ∧ c < 8) ∧ ¬(r < 8 ∧ n - 8 ≤ c) ∧ ¬(n - 8 ≤ r ∧ c < 8)

theorem stampValue_outside (hn : 17 ≤ n) (h : OutsideStamps n r c) : stampValue n r c = none := by
  obtain ⟨htl, htr, hbl⟩ := h
  rw [stampValue_eq_or, stampOf_outside (by dsimp only; omega), stampOf_outside (by dsimp only; omega),
    stampOf_outside (by dsimp only; omega), Option.none_or, Option.none_or]

theorem stampValue_eq_none_iff (hn : 17 ≤ n) (hr : r < n) (hc : c < n) :
    stampValue n r c = none ↔ OutsideStamps n r c := by
  refine ⟨fun h => ⟨?_, ?_, ?_⟩, stampValue_outside hn⟩
  · rintro ⟨hr8, hc8⟩
    exact Option.some_ne_none _ ((stampValue_topLeft hn hr8 hc8).symm.trans h)
  · rintro ⟨hr8, hc8⟩
    exact Option.some_ne_none _ ((stampValue_topRight hn hr8 hc8 hc).symm.trans h)
  · rintro ⟨hr8, hc8⟩
    exact Option.some_ne_none _ ((stampValue_bottomLeft hn hr8 hr hc8).symm.trans h)

end Stamps

/-! ### The columns of the pairs (46_matrix.md R209, R210) -/

/-- The column where the traversal stands with `k` pairs to go: `2 * k`, or one less once it has passed the timing
column `t`. -/
def pairStart (t k : Nat) : Nat := if 2 * k < t then 2 * k - 1 else 2 * k

theorem rightColumns_pairStart {t : Nat} (heven : t % 2 = 0) (k : Nat) {pairs : Nat} (hk : k ≤ pairs) :
    rightColumns t pairs (pairStart t k) =
      (List.range k).map (fun j => if t < 2 * (k - j) then 2 * (k - j) else 2 * (k - j) - 1) := by
  induction k generalizing pairs with
  | zero => cases pairs <;> simp [pairStart, rightColumns]
  | succ k ih =>
    obtain ⟨p, rfl⟩ : ∃ p, pairs = p + 1 := ⟨pairs - 1, by omega⟩
    have hpos : 0 < pairStart t (k + 1) := by unfold pairStart; split <;> omega
    have hcol : (if pairStart t (k + 1) = t then pairStart t (k + 1) - 1 else pairStart t (k + 1)) =
        if t < 2 * (k + 1) then 2 * (k + 1) else 2 * (k + 1) - 1 := by
      unfold pairStart; split_ifs <;> omega
    have hnext : (if t < 2 * (k + 1) then 2 * (k + 1) else 2 * (k + 1) - 1) - 2 = pairStart t k := by
      unfold pairStart; split_ifs <;> omega
    rw [rightColumns, if_pos hpos]
    simp only [hcol, hnext]
    rw [ih (by omega), List.range_succ_eq_map, List.map_cons, List.map_map, Nat.sub_zero]
    simp only [Function.comp_def, Nat.succ_sub_succ]

/-- Under valid parameters the right-hand columns are those of R210. -/
theorem rightColumns_eq_map_pairColumn {c : Config} (hc : c.Valid) :
    rightColumns c.timingCol c.n (c.n - 1) = (List.range ((c.n - 1) / 2)).map (pairColumn c) := by
  obtain ⟨hodd, hn, -, -, -, -, heven, htwo, ht, -⟩ := hc
  have hstart : c.n - 1 = pairStart c.timingCol ((c.n - 1) / 2) := by unfold pairStart; split <;> omega
  conv_lhs => rw [hstart]
  rw [rightColumns_pairStart heven _ (by omega)]
  refine List.map_congr_left fun j hj => ?_
  have hj := List.mem_range.mp hj
  unfold pairColumn
  split_ifs <;> omega

/-! ### The cells of the sweeps (46_matrix.md R211) -/

/-- A list of pairs laid out flat, entry by entry. -/
theorem getElem?_flatMap_pair {α β : Type} (f g : α → β) (l : List α) (k : Nat) :
    (l.flatMap fun x => [f x, g x])[2 * k]? = l[k]?.map f ∧
      (l.flatMap fun x => [f x, g x])[2 * k + 1]? = l[k]?.map g := by
  induction l generalizing k with
  | nil => exact ⟨rfl, rfl⟩
  | cons x xs ih =>
    cases k with
    | zero => exact ⟨rfl, rfl⟩
    | succ k => exact ih k

theorem getElem?_sweepRows {n k : Nat} (up : Bool) (hk : k < n) :
    (sweepRows n up)[k]? = some (if up then n - 1 - k else k) := by
  cases up with
  | false => simp [sweepRows, hk]
  | true => simp [sweepRows, hk]

theorem getElem?_sweepCells {n k : Nat} (up : Bool) (x : Nat) (hk : k < n) :
    (sweepCells n up x)[2 * k]? = some (if up then n - 1 - k else k, x) ∧
      (sweepCells n up x)[2 * k + 1]? = some (if up then n - 1 - k else k, x - 1) := by
  obtain ⟨hright, hleft⟩ := getElem?_flatMap_pair (fun r => (r, x)) (fun r => (r, x - 1)) (sweepRows n up) k
  rw [getElem?_sweepRows up hk] at hright hleft
  exact ⟨hright, hleft⟩

theorem length_sweepCells (n : Nat) (up : Bool) (x : Nat) : (sweepCells n up x).length = 2 * n := by
  cases up <;> simp [sweepCells, sweepRows, Nat.mul_comm]

theorem length_sweeps (n : Nat) (up : Bool) (cols : List Nat) : (sweeps n up cols).length = cols.length * (2 * n) := by
  induction cols generalizing up with
  | nil => simp [sweeps]
  | cons x xs ih => rw [sweeps, List.length_append, length_sweepCells, ih, List.length_cons,
      Nat.succ_mul xs.length, Nat.add_comm]

/-- The sweeps follow each other in alternating directions. -/
theorem getElem?_sweeps {n i : Nat} (hi : i < 2 * n) (up : Bool) {cols : List Nat} {j x : Nat}
    (hx : cols[j]? = some x) :
    (sweeps n up cols)[j * (2 * n) + i]? = (sweepCells n (up == decide (j % 2 = 0)) x)[i]? := by
  induction cols generalizing up j with
  | nil => cases hx
  | cons y ys ih =>
    cases j with
    | zero =>
      cases hx
      rw [sweeps, Nat.zero_mul, Nat.zero_add, List.getElem?_append_left (by rwa [length_sweepCells])]
      simp
    | succ j =>
      have hdir : ((!up) == decide (j % 2 = 0)) = (up == decide ((j + 1) % 2 = 0)) := by
        rcases Nat.mod_two_eq_zero_or_one j with hj | hj <;> cases up <;> simp [Nat.add_mod, hj]
      rw [sweeps, List.getElem?_append_right (by rw [length_sweepCells, Nat.succ_mul j]; omega), length_sweepCells,
        show (j + 1) * (2 * n) + i - 2 * n = j * (2 * n) + i by rw [Nat.succ_mul j]; omega, ih (!up) hx, hdir]

/-! ### The traversal (46_matrix.md R209 to R212) -/

section Traversal
variable {c : Config}

theorem length_visitOrder (hc : c.Valid) : (visitOrder c).length = c.n * (c.n - 1) := by
  have heven : 2 * ((c.n - 1) / 2) = c.n - 1 := by obtain ⟨hodd, -⟩ := hc; omega
  rw [visitOrder, rightColumns_eq_map_pairColumn hc, length_sweeps, List.length_map, List.length_range,
    ← Nat.mul_assoc, Nat.mul_comm _ 2, heven, Nat.mul_comm]

/-- The `k`-th row of the `j`-th sweep (R211). -/
theorem getElem?_visitOrder (hc : c.Valid) {j k : Nat} (hj : j < (c.n - 1) / 2) (hk : k < c.n) :
    (visitOrder c)[2 * (j * c.n + k)]? = some (pairRow c j k, pairColumn c j) ∧
      (visitOrder c)[2 * (j * c.n + k) + 1]? = some (pairRow c j k, pairColumn c j - 1) := by
  have hcol : ((List.range ((c.n - 1) / 2)).map (pairColumn c))[j]? = some (pairColumn c j) := by
    rw [List.getElem?_map, List.getElem?_range hj, Option.map_some]
  have hrow : (if (true == decide (j % 2 = 0)) = true then c.n - 1 - k else k) = pairRow c j k := by
    simp [pairRow]
  obtain ⟨hright, hleft⟩ := getElem?_sweepCells (true == decide (j % 2 = 0)) (pairColumn c j) hk
  rw [hrow] at hright hleft
  rw [visitOrder, rightColumns_eq_map_pairColumn hc, show 2 * (j * c.n + k) = j * (2 * c.n) + 2 * k by ring,
    Nat.add_assoc, getElem?_sweeps (by omega) true hcol, getElem?_sweeps (by omega) true hcol]
  exact ⟨hright, hleft⟩

/-- The traversal has as many entries as there are cells outside the timing column, and all of those are among
them: none can come twice. -/
theorem nodup_visitOrder (hc : c.Valid) : (visitOrder c).Nodup := by
  have hcells : (visitOrder c).toFinset = Finset.range c.n ×ˢ (Finset.range c.n).erase c.timingCol := by
    ext ⟨row, col⟩
    simp only [List.mem_toFinset, mem_visitOrder hc, Finset.mem_product, Finset.mem_erase, Finset.mem_range]
    tauto
  have ht : c.timingCol ∈ Finset.range c.n := by
    obtain ⟨-, hn, -, -, -, -, -, -, ht, -⟩ := hc
    exact Finset.mem_range.mpr (by omega)
  rw [← Multiset.coe_nodup, ← Multiset.toFinset_card_eq_card_iff_nodup, Multiset.coe_card, length_visitOrder hc]
  refine (congrArg Finset.card hcells).trans ?_
  rw [Finset.card_product, Finset.card_erase_of_mem ht, Finset.card_range]

theorem visitOrder_in_grid (hc : c.Valid) : ∀ rc ∈ visitOrder c, rc.1 < c.n ∧ rc.2 < c.n := fun _ hrc =>
  have hgrid := (mem_visitOrder hc).mp hrc
  ⟨hgrid.1, hgrid.2.1⟩

end Traversal

/-- Settles O47: the pairs' columns and the sweeps' rows are in closed form, and counting rules out repeats. -/
theorem theTraversalIsAnAlternatingZigzag : Obligations.TheTraversalIsAnAlternatingZigzag := fun _ hc =>
  ⟨length_visitOrder hc, fun _ _ => getElem?_visitOrder hc, nodup_visitOrder hc, fun _ _ => mem_visitOrder hc⟩

/-! ### What the placer does along a list of cells (46_matrix.md R213, R214) -/

/-- What the `k`-th free cell receives. -/
def placedCell (cw : List Byte) (total k : Nat) : Cell :=
  if k < 8 * total ∧ storeBit cw k = true then .dark else .light

/-- The UNSET cells among `cells`. -/
def unsetAmong (mx : List (List Cell)) (cells : List (Nat × Nat)) : List (Nat × Nat) :=
  cells.filter (fun rc => decide (cellAt mx rc.1 rc.2 = .unset))

theorem freeCells_eq_unsetAmong (c : Config) (mx : List (List Cell)) :
    freeCells c mx = unsetAmong mx (visitOrder c) := rfl

section Placer
variable {n : Nat} (cw : List Byte) (total : Nat) {st : List (List Cell) × Nat}

theorem unsetAmong_cons_unset {mx : List (List Cell)} {rc : Nat × Nat} (hu : cellAt mx rc.1 rc.2 = .unset)
    (rest : List (Nat × Nat)) : unsetAmong mx (rc :: rest) = rc :: unsetAmong mx rest :=
  List.filter_cons_of_pos (decide_eq_true hu)

theorem unsetAmong_cons_decided {mx : List (List Cell)} {rc : Nat × Nat} (hd : cellAt mx rc.1 rc.2 ≠ .unset)
    (rest : List (Nat × Nat)) : unsetAmong mx (rc :: rest) = unsetAmong mx rest :=
  List.filter_cons_of_neg (by simpa using hd)

theorem placeCell_decided {rc : Nat × Nat} (hd : cellAt st.1 rc.1 rc.2 ≠ .unset) : placeCell cw total st rc = st :=
  if_neg hd

theorem placeCell_snd_unset {rc : Nat × Nat} (hu : cellAt st.1 rc.1 rc.2 = .unset) :
    (placeCell cw total st rc).2 = st.2 + 1 := by
  rw [placeCell, if_pos hu]

theorem cellAt_placeCell_self_unset (h : GridShape n st.1) {rc : Nat × Nat} (hin : rc.1 < n ∧ rc.2 < n)
    (hu : cellAt st.1 rc.1 rc.2 = .unset) :
    cellAt (placeCell cw total st rc).1 rc.1 rc.2 = placedCell cw total st.2 := by
  obtain ⟨hr, hc⟩ := hin
  rw [cellAt_placeCell h cw total hr hc, if_pos ⟨hu, rfl, rfl⟩]
  simp only [placedCell, Bool.and_eq_true, decide_eq_true_eq]

/-- A look at one cell leaves the other cells free or not, as they were. -/
theorem unsetAmong_placeCell (h : GridShape n st.1) {rc : Nat × Nat} (hin : rc.1 < n ∧ rc.2 < n)
    {rest : List (Nat × Nat)} (hmem : rc ∉ rest) :
    unsetAmong (placeCell cw total st rc).1 rest = unsetAmong st.1 rest := by
  obtain ⟨hr, hc⟩ := hin
  refine List.filter_congr fun x hx => ?_
  rw [cellAt_placeCell_of_ne cw total h hr hc (fun he => hmem (he ▸ hx))]

/-- The placer counts the free cells. -/
theorem foldl_placeCell_snd {cells : List (Nat × Nat)} (hin : ∀ rc ∈ cells, rc.1 < n ∧ rc.2 < n)
    (hnd : cells.Nodup) (h : GridShape n st.1) :
    (cells.foldl (placeCell cw total) st).2 = st.2 + (unsetAmong st.1 cells).length := by
  induction cells generalizing st with
  | nil => rfl
  | cons rc rest ih =>
    obtain ⟨hrc, hrest⟩ := List.forall_mem_cons.mp hin
    obtain ⟨hmem, hnd'⟩ := List.nodup_cons.mp hnd
    rw [List.foldl_cons, ih hrest hnd' (gridShape_placeCell h cw total rc), unsetAmong_placeCell cw total h hrc hmem]
    by_cases hu : cellAt st.1 rc.1 rc.2 = .unset
    · rw [placeCell_snd_unset cw total hu, unsetAmong_cons_unset hu, List.length_cons]
      omega
    · rw [placeCell_decided cw total hu, unsetAmong_cons_decided hu]

/-- The placer gives the `k`-th free cell bit `k`, counted on from where it stands. -/
theorem cellAt_foldl_placeCell_of_getElem? {cells : List (Nat × Nat)} (hin : ∀ rc ∈ cells, rc.1 < n ∧ rc.2 < n)
    (hnd : cells.Nodup) (h : GridShape n st.1) {k r c : Nat} (hk : (unsetAmong st.1 cells)[k]? = some (r, c)) :
    cellAt (cells.foldl (placeCell cw total) st).1 r c = placedCell cw total (st.2 + k) := by
  induction cells generalizing st k with
  | nil => cases hk
  | cons rc rest ih =>
    obtain ⟨hrc, hrest⟩ := List.forall_mem_cons.mp hin
    obtain ⟨hmem, hnd'⟩ := List.nodup_cons.mp hnd
    have hshape := gridShape_placeCell h cw total rc
    by_cases hu : cellAt st.1 rc.1 rc.2 = .unset
    · rw [unsetAmong_cons_unset hu] at hk
      cases k with
      | zero =>
        cases hk
        have hd := cellAt_placeCell_self_ne_unset cw total h hrc.1 hrc.2
        exact (cellAt_foldl_placeCell_of_decided cw total rest hrest hshape hd).trans
          (cellAt_placeCell_self_unset cw total h hrc hu)
      | succ k =>
        rw [List.foldl_cons, ih hrest hnd' hshape (by rwa [unsetAmong_placeCell cw total h hrc hmem]),
          placeCell_snd_unset cw total hu, Nat.add_right_comm, Nat.add_assoc]
    · rw [List.foldl_cons, placeCell_decided cw total hu]
      exact ih hrest hnd' h (by rwa [unsetAmong_cons_decided hu] at hk)

end Placer

/-! ### The free cells of a stamped matrix and their number (46_matrix.md R213, 00_scope.md R10) -/

/-- The cells outside the stamps and the timing column, in three bands of rows. -/
def openCells (c : Config) : Finset (Nat × Nat) :=
  Finset.range 8 ×ˢ (Finset.Ico 8 (c.n - 8)).erase c.timingCol ∪
    Finset.Ico 8 (c.n - 8) ×ˢ (Finset.range c.n).erase c.timingCol ∪
      Finset.Ico (c.n - 8) c.n ×ˢ (Finset.Ico 8 c.n).erase c.timingCol

theorem mem_openCells {c : Config} (hn : 17 ≤ c.n) {row col : Nat} :
    (row, col) ∈ openCells c ↔ row < c.n ∧ col < c.n ∧ col ≠ c.timingCol ∧ OutsideStamps c.n row col := by
  simp only [openCells, OutsideStamps, Finset.mem_union, Finset.mem_product, Finset.mem_erase, Finset.mem_range,
    Finset.mem_Ico]
  omega

theorem card_openCells {c : Config} (hc : c.Valid) : (openCells c).card = c.avail := by
  obtain ⟨hodd, hn, -, -, -, -, heven, htwo, ht, -⟩ := hc
  obtain ⟨m, hm⟩ : ∃ m, c.n = m + 16 := ⟨c.n - 16, by omega⟩
  have hmid : m + 16 - 8 = m + 8 := rfl
  have hband : m + 8 - 8 = m := rfl
  have hwidth : m + 16 - 1 = m + 15 := rfl
  have hbottom : m + 16 - (m + 8) = 8 := by omega
  rw [openCells, Finset.card_union_of_disjoint, Finset.card_union_of_disjoint]
  · simp only [Finset.card_product, Finset.card_erase_eq_ite, Finset.card_range, Nat.card_Ico, Finset.mem_range,
      Finset.mem_Ico, Config.avail, Config.stampedInTiming, hm, hmid, hband,
      hbottom]
    have hsq : (m + 16) * (m + 16) = m * (m + 15) + 17 * m + 256 := by ring
    rw [hsq, if_pos (show c.timingCol < m + 16 by omega), hwidth]
    split_ifs <;> omega
  all_goals
    refine Finset.disjoint_left.mpr fun ⟨row, col⟩ => ?_
    simp only [Finset.mem_union, Finset.mem_product, Finset.mem_erase, Finset.mem_range, Finset.mem_Ico]
    omega

section Stamped
variable {s : State}

theorem State.Inv.cellAt_of_cleared (h : s.Inv) (hp : s.mxp = .cleared) {row col : Nat} (hrow : row < s.cfg.n)
    (hcol : col < s.cfg.n) : cellAt s.mx row col = .unset := by
  obtain ⟨-, hcell⟩ := h.mxInv
  exact cellOk_cleared.mp (hp ▸ hcell row hrow col hcol)

theorem State.Inv.cellAt_of_stamped (h : s.Inv) (hp : s.mxp = .stamped) {row col : Nat} (hrow : row < s.cfg.n)
    (hcol : col < s.cfg.n) : cellAt s.mx row col = (stampValue s.cfg.n row col).getD .unset := by
  obtain ⟨-, hcell⟩ := h.mxInv
  exact cellOk_stamped.mp (hp ▸ hcell row hrow col hcol)

theorem State.Inv.cellAt_eq_unset_iff_of_stamped (h : s.Inv) (hp : s.mxp = .stamped) {row col : Nat}
    (hrow : row < s.cfg.n) (hcol : col < s.cfg.n) :
    cellAt s.mx row col = .unset ↔ OutsideStamps s.cfg.n row col := by
  obtain ⟨-, hn, -⟩ := h.valid
  rw [h.cellAt_of_stamped hp hrow hcol, ← stampValue_eq_none_iff hn hrow hcol]
  cases hstamp : stampValue s.cfg.n row col with
  | none => exact iff_of_true rfl rfl
  | some x => exact iff_of_false (stampValue_ne_unset hstamp) (Option.some_ne_none x)

theorem State.Inv.toFinset_freeCells (h : s.Inv) (hp : s.mxp = .stamped) :
    (freeCells s.cfg s.mx).toFinset = openCells s.cfg := by
  obtain ⟨-, hn, -⟩ := h.valid
  ext ⟨row, col⟩
  rw [List.mem_toFinset, freeCells, List.mem_filter, mem_visitOrder h.valid, mem_openCells hn, decide_eq_true_eq]
  constructor
  · rintro ⟨⟨hrow, hcol, ht⟩, hu⟩
    exact ⟨hrow, hcol, ht, (h.cellAt_eq_unset_iff_of_stamped hp hrow hcol).mp hu⟩
  · rintro ⟨hrow, hcol, ht, hout⟩
    exact ⟨⟨hrow, hcol, ht⟩, (h.cellAt_eq_unset_iff_of_stamped hp hrow hcol).mpr hout⟩

theorem State.Inv.length_freeCells (h : s.Inv) (hp : s.mxp = .stamped) :
    (freeCells s.cfg s.mx).length = s.cfg.avail := by
  have hnd : (freeCells s.cfg s.mx).Nodup := (nodup_visitOrder h.valid).filter _
  rw [← List.toFinset_card_of_nodup hnd, h.toFinset_freeCells hp, card_openCells h.valid]

end Stamped

/-! ### A grid is its cells -/

theorem getElem_getElem_eq_cellAt {mx : List (List Cell)} {r c : Nat} (hr : r < mx.length) (hc : c < mx[r].length) :
    mx[r][c] = cellAt mx r c := by
  simp [cellAt, List.getD_eq_getElem?_getD, hr, hc]

theorem gridShape_ext {n : Nat} {a b : List (List Cell)} (ha : GridShape n a) (hb : GridShape n b)
    (h : ∀ r c, r < n → c < n → cellAt a r c = cellAt b r c) : a = b := by
  obtain ⟨hla, hrowsa⟩ := ha
  obtain ⟨hlb, hrowsb⟩ := hb
  refine List.ext_getElem (hla.trans hlb.symm) fun r hra hrb => ?_
  have hwa := hrowsa _ (List.getElem_mem hra)
  have hwb := hrowsb _ (List.getElem_mem hrb)
  refine List.ext_getElem (hwa.trans hwb.symm) fun c hca hcb => ?_
  rw [getElem_getElem_eq_cellAt, getElem_getElem_eq_cellAt]
  exact h r c (hla ▸ hra) (hwa ▸ hca)

/-- States with the same parameters have the same stamped matrix. -/
theorem State.Inv.mx_eq_of_stamped {s s' : State} (h : s.Inv) (h' : s'.Inv) (hcfg : s.cfg = s'.cfg)
    (hp : s.mxp = .stamped) (hp' : s'.mxp = .stamped) : s.mx = s'.mx := by
  obtain ⟨hshape, -⟩ := h.mxInv
  obtain ⟨hshape', -⟩ := h'.mxInv
  refine gridShape_ext hshape (hcfg ▸ hshape') fun r c hr hc => ?_
  rw [h.cellAt_of_stamped hp hr hc, h'.cellAt_of_stamped hp' (hcfg ▸ hr) (hcfg ▸ hc), hcfg]

/-! ### The matrix commands out of lockout (46_matrix.md R201 to R216) -/

section Open
variable {s : State}

theorem exec_mxfind_sequence (hopen : s.faultCode = none) (hp : s.mxp ≠ .cleared) :
    exec .mxfind s = .next (afterFault s .sequence) :=
  unlessLocked_require_fault hopen hp _ _

theorem exec_mxplace_sequence (hopen : s.faultCode = none) (h : s.mxp ≠ .stamped ∨ s.cw = none) :
    exec .mxplace s = .next (afterFault s .sequence) := by
  by_cases hp : s.mxp = .stamped
  · have hcw := h.resolve_left (not_not_intro hp)
    rw [exec, execMxplace, unlessLocked_require_of_open hopen hp, hcw, State.raise_eq_afterFault]
  · exact unlessLocked_require_fault hopen hp _ _

/-- The answer of MXPLACE is the number of free cells (R209). -/
theorem State.Inv.exec_mxplace (h : s.Inv) (hopen : s.faultCode = none) (hp : s.mxp = .stamped) {l : List Byte}
    (hcw : s.cw = some l) :
    exec .mxplace s = .next { s with
      mx := (placeAll s.cfg l s.mx).1, mxp := .placed,
      response := some (okWord (BitVec.ofNat 16 (freeCells s.cfg s.mx).length)) } := by
  obtain ⟨hshape, -⟩ := h.mxInv
  have hcount : (placeAll s.cfg l s.mx).2 = (freeCells s.cfg s.mx).length := by
    rw [placeAll, foldl_placeCell_snd l _ (visitOrder_in_grid h.valid) (nodup_visitOrder h.valid) hshape,
      Nat.zero_add, freeCells_eq_unsetAmong]
  rw [exec_mxplace_open hopen hp hcw, hcount]
  exact congrArg _ (State.answer_of_open (s := { s with mx := _, mxp := .placed }) hopen _)

/-- An MXPLACE that raises no fault has found a stamped matrix and codewords (R209). -/
theorem stamped_of_exec_mxplace {t : State} (hopen : s.faultCode = none) (hexec : exec .mxplace s = .next t)
    (hok : t.faultCode = none) : s.mxp = .stamped ∧ ∃ l, s.cw = some l := by
  by_contra hnot
  have hbad : s.mxp ≠ .stamped ∨ s.cw = none := by
    rw [← Option.ne_none_iff_exists'] at hnot
    tauto
  cases (exec_mxplace_sequence hopen hbad).symm.trans hexec
  cases hok

theorem exec_mxrd_open (hopen : s.faultCode = none) {row col : Byte} (hrow : row.toNat < s.cfg.n)
    (hcol : col.toNat < s.cfg.n) : exec (.mxrd row col) s = .next { s with
      response := some (okWord ((cellBits (cellAt s.mx row.toNat col.toNat)).setWidth 16)) } :=
  (unlessLocked_require_of_open hopen ⟨hrow, hcol⟩ _ _).trans (congrArg _ (State.answer_of_open hopen _))

theorem exec_mxrd_index (hopen : s.faultCode = none) {row col : Byte}
    (hout : s.cfg.n ≤ row.toNat ∨ s.cfg.n ≤ col.toNat) : exec (.mxrd row col) s = .next (afterFault s .index) :=
  unlessLocked_require_fault hopen (by omega) _ _

theorem exec_mxdark_sequence (hopen : s.faultCode = none) (row col : Byte) (hp : s.mxp ≠ .placed) :
    exec (.mxdark row col) s = .next (afterFault s .sequence) :=
  unlessLocked_require_fault hopen hp _ _

theorem exec_mxdark_open (hopen : s.faultCode = none) {row col : Byte} (hp : s.mxp = .placed)
    (hrow : row.toNat < s.cfg.n) (hcol : col.toNat < s.cfg.n) : exec (.mxdark row col) s = .next { s with
      response := some (okWord (valOfBool (decide (cellAt s.mx row.toNat col.toNat = .dark)))) } := by
  rw [exec, execMxdark, unlessLocked_require_of_open hopen hp, State.require_pos ⟨hrow, hcol⟩,
    State.answer_of_open hopen]

theorem exec_mxdark_index (hopen : s.faultCode = none) {row col : Byte} (hp : s.mxp = .placed)
    (hout : s.cfg.n ≤ row.toNat ∨ s.cfg.n ≤ col.toNat) : exec (.mxdark row col) s = .next (afterFault s .index) := by
  rw [exec, execMxdark, unlessLocked_require_of_open hopen hp, State.require_neg (by omega),
    State.raise_eq_afterFault]

end Open

/-! ### The obligations -/

/-- Settles O45: MXCLR checks nothing but lockout. -/
theorem mxclrClearsTheMatrix : Obligations.MxclrClearsTheMatrix :=
  ⟨decodeOfEncodeIsTheCommand .mxclr rfl, fun s hopen =>
    ⟨_, exec_mxclr_open hopen,
      State.answer_of_open (s := { s with mx := _, mxp := .cleared }) hopen _,
      gridShape_clear _, fun row col _ _ => cellAt_clear s.cfg.n row col⟩⟩

/-- Settles O46: on a cleared matrix a cell is the stamp's where there is one, and the three stamps lie apart. -/
theorem mxfindStampsThreeFinderPatterns : Obligations.MxfindStampsThreeFinderPatterns := by
  refine ⟨decodeOfEncodeIsTheCommand .mxfind rfl, fun s h hopen hp => ?_, fun _ => exec_mxfind_sequence⟩
  obtain ⟨-, hn, -⟩ := h.valid
  obtain ⟨hshape, -⟩ := h.mxInv
  refine ⟨_, exec_mxfind_open hopen hp,
    State.answer_of_open (s := { s with mx := _, mxp := .stamped }) hopen _,
    gridShape_stampGrid hshape, fun row col hrow hcol => ?_⟩
  have hcell : cellAt (stampGrid s.cfg.n s.mx) row col = (stampValue s.cfg.n row col).getD .unset := by
    rw [cellAt_stampGrid hshape hrow hcol, h.cellAt_of_cleared hp hrow hcol]
  refine ⟨fun hr hc => ?_, fun hr hc => ?_, fun hr hc => ?_, fun htl htr hbl => ?_⟩
  · rw [stampValue_topLeft hn hr hc] at hcell
    exact hcell
  · rw [stampValue_topRight hn hr hc hcol] at hcell
    exact hcell
  · rw [stampValue_bottomLeft hn hr hrow hc] at hcell
    exact hcell
  · rw [stampValue_outside hn ⟨htl, htr, hbl⟩] at hcell
    exact hcell

/-- Settles O48: along the traversal, which has no repeats, a cell that is free at first is free when its turn comes. -/
theorem mxplaceWritesTheKthFreeCell : Obligations.MxplaceWritesTheKthFreeCell := by
  intro s l h hopen hp hcw
  obtain ⟨hshape, -⟩ := h.mxInv
  have hin := visitOrder_in_grid h.valid
  refine ⟨_, h.exec_mxplace hopen hp hcw, rfl, gridShape_placeAll hshape l, fun k row col hk => ?_,
    fun row col hfree => ?_⟩
  · have hcell := cellAt_foldl_placeCell_of_getElem? l s.cfg.totalCount (st := (s.mx, 0)) hin
      (nodup_visitOrder h.valid) hshape (freeCells_eq_unsetAmong s.cfg s.mx ▸ hk)
    rwa [Nat.zero_add] at hcell
  · by_cases hmem : (row, col) ∈ visitOrder s.cfg
    · have hd : cellAt s.mx row col ≠ .unset := fun hu => hfree (List.mem_filter.mpr ⟨hmem, decide_eq_true hu⟩)
      exact cellAt_foldl_placeCell_of_decided l _ _ hin (st := (s.mx, 0)) hshape hd
    · exact cellAt_foldl_placeCell_of_notMem l _ _ hin (st := (s.mx, 0)) hshape hmem

/-- Settles O49: the free cells of a stamped matrix are those outside the stamps and the timing column. -/
theorem mxplaceAnswersAvail : Obligations.MxplaceAnswersAvail := by
  refine ⟨decodeOfEncodeIsTheCommand .mxplace rfl, fun s l h hopen hp hcw => ?_, fun _ => exec_mxplace_sequence⟩
  exact ⟨_, h.exec_mxplace hopen hp hcw, by rw [h.length_freeCells hp], rfl⟩

/-- Settles O50: the stamped matrix from which MXPLACE starts is the same in both states. -/
theorem thePlacedMatrixDependsOnTheCodewordsAlone : Obligations.ThePlacedMatrixDependsOnTheCodewordsAlone := by
  intro s₁ s₂ t₁ t₂ h₁ h₂ hcfg hcw hopen₁ hopen₂ hexec₁ hexec₂ hok₁ hok₂
  obtain ⟨hp₁, l, hl₁⟩ := stamped_of_exec_mxplace hopen₁ hexec₁ hok₁
  obtain ⟨hp₂, -⟩ := stamped_of_exec_mxplace hopen₂ hexec₂ hok₂
  cases (h₁.exec_mxplace hopen₁ hp₁ hl₁).symm.trans hexec₁
  cases (h₂.exec_mxplace hopen₂ hp₂ (hcw ▸ hl₁)).symm.trans hexec₂
  have hmx := h₁.mx_eq_of_stamped h₂ hcfg hp₁ hp₂
  simp only [hmx, hcfg, and_self]

/-- Settles O51: a cell's code and its darkness are read off case by case. -/
theorem mxrdAndMxdarkAnswerTheCell : Obligations.MxrdAndMxdarkAnswerTheCell := by
  refine ⟨fun row col => decodeOfEncodeIsTheCommand (.mxrd row col) rfl,
    fun row col => decodeOfEncodeIsTheCommand (.mxdark row col) rfl, fun row col s hopen =>
      ⟨fun hrow hcol => ?_, exec_mxrd_index hopen, fun hp hrow hcol => ?_, exec_mxdark_sequence hopen row col,
        exec_mxdark_index hopen⟩⟩
  · rw [exec_mxrd_open hopen hrow hcol]
    cases cellAt s.mx row.toNat col.toNat <;> rfl
  · rw [exec_mxdark_open hopen hp hrow hcol]
    cases cellAt s.mx row.toNat col.toNat <;> rfl

end Sys2Proof.Machine
end

section
/-! SUPPORT. The obligations of the system commands (47_system.md R231 to R234), the only ones that execute in lockout:
their answer carries the fault code, whatever it is. -/

namespace Sys2Proof.Machine

/-! ### The response of a command that succeeds, in lockout too (30_encoding.md R84) -/

theorem responseWord_false (f : BitVec 4) (v : Half) : responseWord false f v = okWordAt f v := rfl

theorem State.answer_eq (s : State) (v : Half) :
    s.answer v = { s with response := some (okWordAt (fcode s.faultCode) v) } := by
  rw [State.answer, responseWord_false]

/-! ### The fields of STATUS (10_state.md R34) -/

section Status
variable (s : State)

theorem State.statusWord_fault : s.statusWord.extractLsb' 0 4 = fcode s.faultCode :=
  BitVec.extractLsb'_append_eq_right

theorem State.statusWord_cwv : s.statusWord.getLsbD 4 = s.cw.isSome := by
  simp only [State.statusWord, State.cwv, BitVec.getLsbD_append]
  simp

theorem State.statusWord_mxp : s.statusWord.extractLsb' 5 2 = phaseBits s.mxp := by
  rw [State.statusWord, BitVec.extractLsb'_append_eq_of_le (by decide), BitVec.extractLsb'_append_eq_of_le (by decide)]
  exact BitVec.extractLsb'_append_eq_right

theorem State.statusWord_zeros : s.statusWord.extractLsb' 7 9 = 0#9 := by
  rw [State.statusWord, BitVec.extractLsb'_append_eq_of_le (by decide), BitVec.extractLsb'_append_eq_of_le (by decide)]
  exact BitVec.extractLsb'_append_eq_left

end Status

/-! ### What SRST writes (10_state.md R39, 47_system.md R234) -/

/-- The parameters aside, the reset state differs from what SRST writes only in the port and the response. -/
theorem State.softReset_eq_resetOf (s : State) :
    s.softReset = { State.resetOf s.cfg with port := s.port, response := s.response } := rfl

/-! ### RDCFG (47_system.md R233) -/

section Rdcfg
variable {sel : Half} {s : State}

theorem exec_rdcfg_of_configWord {v : Nat} (h : configWord s.cfg sel.toNat = some v) :
    exec (.rdcfg sel) s = .next (s.answer (valOfNat v)) := by
  rw [exec, execRdcfg, h]

theorem exec_rdcfg_of_le (h : 6 ≤ sel.toNat) : exec (.rdcfg sel) s = unlessLocked s (s.raise .index) := by
  have hnone : configWord s.cfg sel.toNat = none := List.getElem?_eq_none h
  rw [exec, execRdcfg, hnone]

end Rdcfg

/-! ### The obligations -/

/-- Settles O13: what SRST puts back is the reset state, whose fault code is none. -/
theorem srstRestoresTheResetState : Obligations.SrstRestoresTheResetState := by
  refine ⟨decodeOfEncodeIsTheCommand .srst rfl, fun s => ?_⟩
  rw [exec, execSrst, State.softReset_eq_resetOf]
  exact congrArg _ (State.answer_of_open rfl _)

/-- Settles O14: NOP answers 0 from any state. -/
theorem nopAnswersZeroAndChangesNothing : Obligations.NopAnswersZeroAndChangesNothing :=
  ⟨decodeOfEncodeIsTheCommand .nop rfl, fun s => congrArg Host.Outcome.next (s.answer_eq _)⟩

/-- Settles O15: RDST answers the status word, which is its four fields side by side. -/
theorem rdstAnswersTheStatusWord : Obligations.RdstAnswersTheStatusWord :=
  ⟨decodeOfEncodeIsTheCommand .rdst rfl, fun s => ⟨s.statusWord, congrArg Host.Outcome.next (s.answer_eq _),
    s.statusWord_fault, s.statusWord_cwv, s.statusWord_mxp, s.statusWord_zeros⟩⟩

/-- Settles O16: a selector below 6 names a configuration word; any other raises INDEX, unless lockout refuses it. -/
theorem rdcfgAnswersTheConfigurationWords : Obligations.RdcfgAnswersTheConfigurationWords := by
  refine ⟨fun sel => decodeOfEncodeIsTheCommand (.rdcfg sel) rfl, fun sel s h => ?_,
    fun sel s h => ⟨fun hopen => ?_, fun f hlock => ?_⟩⟩
  · rw [exec_rdcfg_of_configWord (List.getElem?_eq_getElem h), State.answer_eq]
    rfl
  · rw [exec_rdcfg_of_le h, unlessLocked_open hopen, State.raise_eq_afterFault]
  · rw [exec_rdcfg_of_le h, unlessLocked_locked hlock, State.refuse_of_locked hlock]

end Sys2Proof.Machine
end

section
/-! SUPPORT. The obligations of the faults and of lockout (60_exceptions.md R241 to R254). What a command may do is said
by `Effect`; here it is read off a step, and each check of a command is set beside the rule that gives its fault. -/

namespace Sys2Proof.Machine

section Lockout
variable {i : Instr} {s t : State} {f : FaultCode}

/-! ### What a step leaves (60_exceptions.md R247, R252) -/

/-- An illegal word is answered as well. -/
theorem exists_execIllegal_next (s : State) : ∃ t, execIllegal s = .next t ∧ t.cfg = s.cfg := by
  cases hf : s.faultCode with
  | none => exact ⟨_, execIllegal_open hf, rfl⟩
  | some f => exact ⟨_, execIllegal_locked hf, rfl⟩

/-- Out of lockout an effect that ends with a fault code is that of raising it. -/
theorem Effect.eq_raise (he : Effect i s t) (hopen : s.faultCode = none) (hf : t.faultCode = some f) :
    t = s.raise f := by
  cases he with
  | refused hlock => exact absurd hopen hlock
  | raised g => cases hf; rfl
  | answered v _ hw => cases hf.symm.trans (hw.faultCode_eq_none hopen)

/-! ### Commands in lockout (60_exceptions.md R250) -/

theorem Effect.eq_refuse (he : Effect i s t) (hlock : s.faultCode = some f) (hi : executesInLockout i = false) :
    t = s.refuse := by
  cases he with
  | refused => rfl
  | raised g hopen => cases hlock.symm.trans hopen
  | answered v hrun =>
    rcases hrun with hopen | hrun
    · cases hlock.symm.trans hopen
    · cases hi.symm.trans hrun

/-- A command that runs in lockout answers, SRST from the state it has reset and the others from the old one. -/
theorem exec_of_executesInLockout (hi : executesInLockout i = true) (s : State) :
    ∃ u v, exec i s = .next (u.answer v) ∧ (i = .srst → u = s.softReset) ∧ (i ≠ .srst → u = s) := by
  cases i with
  | nop | rdst => exact ⟨s, _, rfl, nofun, fun _ => rfl⟩
  | srst => exact ⟨s.softReset, _, rfl, fun _ => rfl, fun h => absurd rfl h⟩
  | rdcfg sel =>
    have hsel : sel.toNat < 6 := Nat.lt_succ_of_le (of_decide_eq_true hi)
    exact ⟨s, _, exec_rdcfg_of_configWord (List.getElem?_eq_getElem hsel), nofun, fun _ => rfl⟩
  | _ => cases hi

end Lockout

/-! ### The obligations of a step -/

/-- Settles O6: waiting, running a command and answering an illegal word each give a next state and keep the parameters. -/
theorem everyStepAnswersANextState : Obligations.EveryStepAnswersANextState := by
  intro s
  rcases step_cases s with ⟨-, hstep⟩ | ⟨w, rest, i, -, -, hstep⟩ | ⟨w, rest, e, -, -, hstep⟩
  · exact ⟨s, hstep, rfl⟩
  · obtain ⟨t, ht, heff⟩ := exec_effect i { s with port := rest }
    obtain ⟨-, -, -, -, hcfg, -⟩ := heff.keepsOtherStores
    exact ⟨t, hstep.trans ht, hcfg⟩
  · obtain ⟨t, ht, hcfg⟩ := exists_execIllegal_next { s with port := rest }
    exact ⟨t, hstep.trans ht, hcfg⟩

/-- Settles O8: a legal word's fault is raised by its command, an illegal word's is ILLEGAL. -/
theorem aFaultWritesNothingButItsCode : Obligations.AFaultWritesNothingButItsCode := by
  intro s t w rest f hopen hp hstep hf
  have hopen' : ({ s with port := rest } : State).faultCode = none := hopen
  cases hd : decode w with
  | ok i =>
    have heff := Effect.of_exec ((step_of_decode_ok hp hd).symm.trans hstep)
    exact (heff.eq_raise hopen' hf).trans (State.raise_eq_afterFault _ f)
  | error e =>
    cases ((step_of_decode_error hp hd).trans (execIllegal_open hopen')).symm.trans hstep
    cases hf
    rfl

/-- Settles O10: a command of the four answers by `exec_of_executesInLockout`; any other is refused, and so is an
illegal word. -/
theorem lockoutRefusesEveryOtherWord : Obligations.LockoutRefusesEveryOtherWord := by
  intro s w rest f hlock hp
  have hlock' : ({ s with port := rest } : State).faultCode = some f := hlock
  refine ⟨fun i hd hi => ?_, fun hother => ?_⟩
  · obtain ⟨u, v, hexec, hsrst, hkeep⟩ := exec_of_executesInLockout hi { s with port := rest }
    refine ⟨u.answer v, _, (step_of_decode_ok hp hd).trans hexec, rfl, responseWord_err .., responseWord_fcode ..,
      fun h => ?_, fun h => ?_⟩
    · rw [hsrst h]; rfl
    · rw [hkeep h]; rfl
  · cases hd : decode w with
    | ok i =>
      obtain ⟨t, ht, heff⟩ := exec_effect i { s with port := rest }
      rw [step_of_decode_ok hp hd, ht, heff.eq_refuse hlock' (hother i hd), State.refuse_of_locked hlock']
    | error e => exact (step_of_decode_error hp hd).trans (execIllegal_locked hlock')

/-- Settles O11: a word in lockout leaves the fault code or runs SRST, and is then the only word of SRST. -/
theorem theFirstFaultCodeSticks : Obligations.TheFirstFaultCodeSticks := by
  intro s t f hlock hstep
  cases hp : s.port with
  | nil =>
    cases (step_of_port_nil hp).symm.trans hstep
    exact .inl hlock
  | cons w rest =>
    obtain ⟨hruns, hrefuses⟩ := lockoutRefusesEveryOtherWord s w rest f hlock hp
    by_cases hother : ∀ i, decode w = .ok i → executesInLockout i = false
    · cases (hrefuses hother).symm.trans hstep
      exact .inl hlock
    · push Not at hother
      obtain ⟨i, hd, hi⟩ := hother
      obtain ⟨u, r, hu, -, -, -, hsrst, hkeep⟩ := hruns i hd (Bool.eq_true_of_not_eq_false hi)
      cases hu.symm.trans hstep
      by_cases hreset : i = .srst
      · obtain ⟨-, hw⟩ := legalWordsAreTheirCommandsWords w i hd
        subst hreset
        exact .inr ⟨hsrst rfl, by rw [← hw]; rfl⟩
      · rw [hkeep hreset]
        exact .inl hlock

/-! ### The first failing check (60_exceptions.md R251): a command is subject to one check, CWRD and MXDARK to two -/

section FirstCheck
variable {i : Instr} {s t : State}

theorem faultByRules_eq_sequenceCheck (hrange : rangeCheck i s = none) (hsize : sizeCheck i s = none)
    (hdomain : domainCheck i = none) : faultByRules i s = sequenceCheck i s := by
  simp [faultByRules, hrange, hsize, hdomain]

theorem faultByRules_eq_rangeCheck (hsequence : sequenceCheck i s = none) (hsize : sizeCheck i s = none)
    (hdomain : domainCheck i = none) : faultByRules i s = rangeCheck i s := by
  simp [faultByRules, hsequence, hsize, hdomain]

theorem faultByRules_eq_sizeCheck (hsequence : sequenceCheck i s = none) (hrange : rangeCheck i s = none)
    (hdomain : domainCheck i = none) : faultByRules i s = sizeCheck i s := by
  simp [faultByRules, hsequence, hrange, hdomain]

theorem faultByRules_eq_domainCheck (hsequence : sequenceCheck i s = none) (hrange : rangeCheck i s = none)
    (hsize : sizeCheck i s = none) : faultByRules i s = domainCheck i := by
  simp [faultByRules, hsequence, hrange, hsize]

/-- A failed phase check decides, whatever the checks after it say. -/
theorem faultByRules_of_sequence (h : sequenceCheck i s = some .sequence) : faultByRules i s = some .sequence := by
  simp [faultByRules, h]

/-! The phase conditions as propositions. -/

theorem sequenceCheck_cwrd (idx : Half) (s : State) :
    sequenceCheck (.cwrd idx) s = if s.cw = none then some .sequence else none := by
  change (if (!s.cw.isSome) = true then _ else _) = _
  simp

theorem sequenceCheck_mxdark (row col : Byte) (s : State) :
    sequenceCheck (.mxdark row col) s = if s.mxp ≠ .placed then some .sequence else none := by
  change (if decide (s.mxp ≠ .placed) = true then _ else _) = _
  simp

theorem sequenceCheck_mxplace (s : State) :
    sequenceCheck .mxplace s = if s.mxp ≠ .stamped ∨ s.cw = none then some .sequence else none := by
  change (if (!s.cw.isSome || decide (s.mxp ≠ .stamped)) = true then _ else _) = _
  simp [or_comm]

section Check
variable {c bad : Prop} [Decidable c] [Decidable bad] {f : FaultCode}

/-- A command with the check `c` raises its fault exactly when the rule's condition `bad` holds. -/
theorem State.require_faultCode (hc : c ↔ ¬bad) (ht : t.faultCode = none) :
    (s.require c f t).faultCode = if bad then some f else none := by
  by_cases hb : bad
  · rw [State.require_neg (fun h => hc.mp h hb), if_pos hb, State.raise_faultCode]
  · rw [State.require_pos (hc.mpr hb), if_neg hb, ht]

/-- The same for a command whose check is not made when `d` holds. -/
theorem State.ite_require_faultCode {d : Prop} [Decidable d] {u : State} (hc : d ∨ c ↔ ¬bad)
    (hu : u.faultCode = none) (ht : t.faultCode = none) :
    (if d then u else s.require c f t).faultCode = if bad then some f else none := by
  by_cases hd : d
  · rw [if_pos hd, if_neg (hc.mp (.inl hd)), hu]
  · rw [if_neg hd, State.require_faultCode ((or_iff_right hd).symm.trans hc) ht]

/-- A command with one check raises the fault of the rules when its check is the one of the rules. -/
theorem unlessLocked_require_faultCode (hopen : s.faultCode = none) (hc : c ↔ ¬bad) (ht : t.faultCode = none)
    (hrules : faultByRules i s = if bad then some f else none) :
    ∃ u, unlessLocked s (s.require c f t) = .next u ∧ u.faultCode = faultByRules i s :=
  ⟨_, unlessLocked_open hopen, (State.require_faultCode hc ht).trans hrules.symm⟩

end Check

theorem exec_cwrd_faultCode (hopen : s.faultCode = none) (idx : Half) :
    ∃ t, exec (.cwrd idx) s = .next t ∧ t.faultCode = faultByRules (.cwrd idx) s := by
  cases hcw : s.cw with
  | none =>
    have hrule := (sequenceCheck_cwrd idx s).trans (if_pos hcw)
    exact ⟨_, exec_cwrd_sequence hopen idx hcw, (faultByRules_of_sequence hrule).symm⟩
  | some l =>
    have hrule := (sequenceCheck_cwrd idx s).trans (if_neg (by rw [hcw]; exact Option.some_ne_none l))
    rw [exec_cwrd_of_cw idx hcw]
    exact unlessLocked_require_faultCode hopen not_le.symm hopen (faultByRules_eq_rangeCheck hrule rfl rfl)

theorem exec_mxdark_faultCode (hopen : s.faultCode = none) (row col : Byte) :
    ∃ t, exec (.mxdark row col) s = .next t ∧ t.faultCode = faultByRules (.mxdark row col) s := by
  by_cases hp : s.mxp = .placed
  · have hrule := (sequenceCheck_mxdark row col s).trans (if_neg (not_not_intro hp))
    rw [exec, execMxdark, State.require_pos hp]
    exact unlessLocked_require_faultCode hopen (by omega) hopen (faultByRules_eq_rangeCheck hrule rfl rfl)
  · have hrule := (sequenceCheck_mxdark row col s).trans (if_pos hp)
    exact ⟨_, exec_mxdark_sequence hopen row col hp, (faultByRules_of_sequence hrule).symm⟩

/-- MXPLACE has two phase conditions and one fault for them. -/
theorem exec_mxplace_faultCode (hopen : s.faultCode = none) :
    ∃ t, exec .mxplace s = .next t ∧ t.faultCode = faultByRules .mxplace s := by
  rw [faultByRules_eq_sequenceCheck rfl rfl rfl, sequenceCheck_mxplace]
  by_cases hbad : s.mxp ≠ .stamped ∨ s.cw = none
  · exact ⟨_, exec_mxplace_sequence hopen hbad, (if_pos hbad).symm⟩
  · obtain ⟨hp, hcw⟩ := not_or.mp hbad
    obtain ⟨l, hl⟩ := Option.ne_none_iff_exists'.mp hcw
    exact ⟨_, exec_mxplace_open hopen (not_not.mp hp) hl, hopen.trans (if_neg hbad).symm⟩

theorem exec_rdcfg_faultCode (hopen : s.faultCode = none) (sel : Half) :
    ∃ t, exec (.rdcfg sel) s = .next t ∧ t.faultCode = faultByRules (.rdcfg sel) s := by
  rw [faultByRules_eq_rangeCheck rfl rfl rfl]
  by_cases hsel : 6 ≤ sel.toNat
  · rw [exec_rdcfg_of_le hsel, unlessLocked_open hopen]
    exact ⟨_, rfl, (if_pos hsel).symm⟩
  · exact ⟨_, exec_rdcfg_of_configWord (List.getElem?_eq_getElem (not_le.mp hsel)), hopen.trans (if_neg hsel).symm⟩

theorem exec_gflog_faultCode (hopen : s.faultCode = none) (a : Byte) :
    ∃ t, exec (.gflog a) s = .next t ∧ t.faultCode = faultByRules (.gflog a) s := by
  rw [faultByRules_eq_domainCheck rfl rfl rfl]
  by_cases ha : a = 0
  · subst ha
    exact ⟨_, exec_gflog_zero hopen, rfl⟩
  · exact ⟨_, exec_gflog_of_gfLog hopen (gfLog_eq_some_logOf ha), hopen.trans (if_neg ha).symm⟩

theorem exec_bput_faultCode (hopen : s.faultCode = none) (v : Half) {w : BitVec 5} (hw : w.toNat ≤ 16) :
    ∃ t, exec (.bput v w) s = .next t ∧ t.faultCode = faultByRules (.bput v w) s := by
  rw [exec, execBput, State.require_pos hw]
  exact unlessLocked_require_faultCode hopen not_lt.symm ((State.putBits_faultCode v w.toNat s).trans hopen)
    (faultByRules_eq_sizeCheck rfl rfl rfl)

theorem exec_ppush_faultCode (hopen : s.faultCode = none) (pd : PReg) (c : Byte) :
    ∃ t, exec (.ppush pd c) s = .next t ∧ t.faultCode = faultByRules (.ppush pd c) s := by
  refine ⟨_, unlessLocked_open hopen, ?_⟩
  rw [faultByRules_eq_sizeCheck rfl rfl rfl]
  refine State.ite_require_faultCode ?_ hopen ((s.setPreg_faultCode pd _).trans hopen)
  rw [← List.length_eq_zero_iff, ← not_le]
  tauto

theorem exec_pshl_faultCode (hopen : s.faultCode = none) (pd : PReg) (sh : Half) :
    ∃ t, exec (.pshl pd sh) s = .next t ∧ t.faultCode = faultByRules (.pshl pd sh) s := by
  refine ⟨_, unlessLocked_open hopen, ?_⟩
  rw [faultByRules_eq_sizeCheck rfl rfl rfl]
  refine State.ite_require_faultCode ?_ hopen ((s.setPreg_faultCode pd _).trans hopen)
  have hsh : sh = 0 ↔ sh.toNat = 0 := BitVec.toNat_eq
  rw [← List.length_eq_zero_iff, hsh]
  omega

theorem exec_pmul_faultCode (hopen : s.faultCode = none) (pd pa pb : PReg) :
    ∃ t, exec (.pmul pd pa pb) s = .next t ∧ t.faultCode = faultByRules (.pmul pd pa pb) s := by
  refine unlessLocked_require_faultCode hopen ?_ ((s.setPreg_faultCode pd _).trans hopen)
    (faultByRules_eq_sizeCheck rfl rfl rfl)
  rw [← List.length_eq_zero_iff, ← List.length_eq_zero_iff]
  omega

end FirstCheck

/-- Settles O9: a command's checks are those of the rules, one by one. -/
theorem theFirstFailingCheckDecidesTheFault : Obligations.TheFirstFailingCheckDecidesTheFault := by
  intro i s hwf hopen
  have hpreg : ∀ d v, (s.setPreg d v).faultCode = none := fun d v => (s.setPreg_faultCode d v).trans hopen
  cases i with
  | nop | rdst => exact ⟨_, rfl, hopen⟩
  | srst => exact ⟨_, rfl, rfl⟩
  | gfexp | gfmul | gfadd | plen | bclr | bcnt | mxclr | mxsize => exact ⟨_, unlessLocked_open hopen, hopen⟩
  | pclr pd => exact ⟨_, unlessLocked_open hopen, hpreg pd _⟩
  | rdcfg sel => exact exec_rdcfg_faultCode hopen sel
  | gflog a => exact exec_gflog_faultCode hopen a
  | ppush pd c => exact exec_ppush_faultCode hopen pd c
  | pshl pd sh => exact exec_pshl_faultCode hopen pd sh
  | pget | bget | brdb =>
    exact unlessLocked_require_faultCode hopen not_le.symm hopen (faultByRules_eq_rangeCheck rfl rfl rfl)
  | mxrd => exact unlessLocked_require_faultCode hopen (by omega) hopen (faultByRules_eq_rangeCheck rfl rfl rfl)
  | pmul pd pa pb => exact exec_pmul_faultCode hopen pd pa pb
  | pmod pd =>
    exact unlessLocked_require_faultCode hopen (not_congr List.length_eq_zero_iff.symm) (hpreg pd _)
      (faultByRules_eq_rangeCheck rfl rfl rfl)
  | pgen pd =>
    exact unlessLocked_require_faultCode hopen not_lt.symm (hpreg pd _) (faultByRules_eq_sizeCheck rfl rfl rfl)
  | bput v w => exact exec_bput_faultCode hopen v (of_decide_eq_true hwf)
  | bputb => exact unlessLocked_require_faultCode hopen not_lt.symm hopen (faultByRules_eq_sizeCheck rfl rfl rfl)
  | rsenc | mxfind =>
    exact unlessLocked_require_faultCode hopen (by simp) hopen (faultByRules_eq_sequenceCheck rfl rfl rfl)
  | cwrd idx => exact exec_cwrd_faultCode hopen idx
  | mxplace => exact exec_mxplace_faultCode hopen
  | mxdark row col => exact exec_mxdark_faultCode hopen row col

end Sys2Proof.Machine
end
